-- ==== Sys2Proof/Word.lean ====
section
/-!
DEFINITION. Words, bytes and the fixed-size register files of the ChaCha20 ARX core
(spec/00_scope.md R9 and R11, spec/10_state.md R41).
Word.lean names types only; every computation on them stands in Decode.lean or under Machine/.
-/
namespace Sys2Proof

/-- R9: a *word* is a 32-bit unsigned value. -/
abbrev Word := BitVec 32

/-- R9: a *byte* is an 8-bit unsigned value. -/
abbrev Byte := BitVec 8

/-- A byte offset in the core's 256-byte register space (R50). -/
abbrev Offset := BitVec 8

/-- R20, R32: eight key words. -/
abbrev KeyWords := Vector Word 8

/-- R20, R33: three nonce words. -/
abbrev NonceWords := Vector Word 3

/-- R20, R39: sixteen words: a state block, a block of output words, DIN or DOUT. -/
abbrev Block := Vector Word 16

/-- R109: the 64 bytes of a serialized keystream block. -/
abbrev BlockBytes := Vector Byte 64

end Sys2Proof
end

