-- ==== Sys2Proof/Config.lean ====
section
/-!
DEFINITION. What is fixed for one core: the source's parameters (R5), the spec's own (R6), the
open parameters (R7) and the free values (R241, R39 and U1, U6 of spec/93_implementation_defined.md).
A free value is an opaque constant: nothing can be proved about what it is.
-/
namespace Sys2Proof

/-- R5: KEY_BYTES, the only key length CREATE_SESSION accepts. -/
def Config.keyBytes : Nat := 32

/-- R5: NONCE_BYTES, the only nonce length CREATE_SESSION accepts. -/
def Config.nonceBytes : Nat := 12

/-- R5: BLOCK_BYTES, the bytes of one keystream block. -/
def Config.blockBytes : Nat := 64

/-- R5: ROUNDS = 20, applied as this many double rounds (90_conflicts.md C5). -/
def Config.doubleRounds : Nat := 10

/-- R5: MAX_BLOCKS; the valid block indices are those below it. -/
def Config.maxBlocks : Nat := 2 ^ 32

/-- R39: one permutation unit's working storage: the initial state block S, the working copy X and
the round index RND in 0 to 20. Hidden; no rule reads it before a command writes it (R230). -/
structure Lane where
  s : Block
  x : Block
  rnd : Fin 21
deriving DecidableEq, Repr, Inhabited

/-- R7 (a): N_LANES is this number plus one. OPEN: no value is known (log entry 5). -/
opaque Config.extraLanes : Nat

/-- R7 (a): N_LANES, at least 1 and otherwise open (log entry 5). -/
def Config.nLanes : Nat := Config.extraLanes + 1

/-- U6: what the hidden datapath holds, by draw and lane number: any value, under no law (log entry 4). -/
opaque Config.laneContents : Nat → Nat → Lane

/-- U1, R241: what a read of DOUT or NEXT_BLK returns while BUSY = 1, by draw: any value, under no
law (log entry 3). -/
opaque Config.anyRead : Nat → Word

/-- R50: which 256-byte slot of the host's address map holds the core. OPEN (log entry 6). -/
opaque Config.coreSlot : Nat

/-- R50: CORE_BASE, a multiple of 256 and otherwise open (log entry 6). -/
def Config.coreBase : Nat := 256 * Config.coreSlot

end Sys2Proof
end

