-- ==== Sys2Proof/Machine/State.lean ====
section
/-!
DEFINITION. The state of the core (spec/10_state.md R20 to R39), the names of its registers (R22),
what stands at its host port (spec/00_scope.md R8), the ways a step can stop, and reset (R230).
-/
namespace Sys2Proof.Machine

/-- R25: the session states. Codes 5 to 7 are never held, so they have no constructor. -/
inductive SessionState where
  | noSession | created | streaming | exhausted | closed
deriving DecidableEq, Repr

/-- R200: the completion codes. Codes 7 to 15 are never produced, so they have no constructor. -/
inductive ErrCode where
  | ok | invalidKeyLength | invalidNonceLength | counterOverflow | illegalCommand | illegalState
  | invalidLength
deriving DecidableEq, Repr

/-- R22: the host-visible registers by name. -/
inductive RegName where
  | cmd | status | blkidxLo | blkidxHi | nextBlkLo | nextBlkHi
  | key (k : Fin 8) | nonce (k : Fin 3) | din (k : Fin 16) | dout (k : Fin 16)
deriving DecidableEq, Repr

/-- R55: the widths of a host access; only 32 bits has a meaning. -/
inductive Width where
  | w8 | w16 | w32 | w64
deriving DecidableEq, Repr

/-- R8, R52, R53: one access of the host, as it stands at the core's port. -/
inductive Access where
  | read (w : Width) (off : Offset)
  | write (w : Width) (off : Offset) (v : Word)
deriving DecidableEq, Repr

/-- R212: the three kinds of event. `core` gives the core its step, which completes the pending
command if there is one and otherwise does nothing (R219). -/
inductive Turn where
  | host (a : Access)
  | core
  | reset
deriving DecidableEq, Repr

/-- The core has no fault: an error of a command is a completion code in STATUS.ERR, after which the
machine goes on (R207). So this type has no constructor, nothing raises it, and that is safe. -/
inductive Fault where
deriving DecidableEq, Repr

/-- Why a step has no meaning. -/
inductive Refusal where
  /-- Raised by `exec` for a command without a meaning. No arm raises it. Safe. -/
  | notModelled (mnemonic : String)
  /-- Raised by a host access of 8, 16 or 64 bits (R55, U2). Safe: nothing can be proved of such a run. -/
  | accessWidth
  /-- Raised by a 32-bit host access at an offset with `off[1:0] ≠ 0` (R55, U2). Safe, as above. -/
  | misalignedAccess
deriving DecidableEq, Repr

/-- The state: the record of R20, then the hidden datapath of R39, then the model's own fields for
the port and the free draws. -/
structure State where
  /-- R32: KEY0 to KEY7, staging. -/
  key : KeyWords
  /-- R33: NONCE0 to NONCE2, staging. -/
  nonce : NonceWords
  /-- R30: the block index operand, `{BLKIDX_HI, BLKIDX_LO}`. -/
  blkidx : BitVec 64
  /-- R34: DIN0 to DIN15. -/
  din : Block
  /-- R35: DOUT0 to DOUT15. -/
  dout : Block
  /-- R36: the session's key copy. -/
  skey : KeyWords
  /-- R36: the session's nonce copy. -/
  snonce : NonceWords
  /-- R37: the session block counter, 0 to 2^32. -/
  nextBlk : BitVec 33
  /-- R25: STATUS.SSTATE. -/
  sstate : SessionState
  /-- R26: STATUS.BUSY. -/
  busy : Bool
  /-- R27: STATUS.DONE. -/
  done : Bool
  /-- R28: STATUS.WIGN. -/
  wign : Bool
  /-- R29: STATUS.ERR. -/
  err : ErrCode
  /-- R38: PEND, the command word accepted at issue. -/
  pend : Word
  /-- R39: the permutation units' working storage, N_LANES of them. -/
  lanes : List Lane
  /-- The model's own: the events to come, earliest first (log entry 1). -/
  turns : List Turn
  /-- The model's own: what the latest host read returned (log entry 9). -/
  readData : Option Word
  /-- The model's own: how many draws of free values have been made (log entry 3). -/
  tick : Nat
deriving DecidableEq, Repr

/-- R230: the state after reset: 0 in every element of R20. What stands in the hidden datapath is
unspecified there; the zeros are log entry 4's. No event is pending. -/
def State.reset : State where
  key := Vector.replicate 8 0#32
  nonce := Vector.replicate 3 0#32
  blkidx := 0#64
  din := Vector.replicate 16 0#32
  dout := Vector.replicate 16 0#32
  skey := Vector.replicate 8 0#32
  snonce := Vector.replicate 3 0#32
  nextBlk := 0#33
  sstate := .noSession
  busy := false
  done := false
  wign := false
  err := .ok
  pend := 0#32
  lanes := List.replicate Config.nLanes ⟨Vector.replicate 16 0#32, Vector.replicate 16 0#32, 0⟩
  turns := []
  readData := none
  tick := 0

end Sys2Proof.Machine
end

