-- ==== Sys2Proof/Machine/Flags.lean ====
section
/-!
DEFINITION. The status register: the codes of SSTATE (R25) and ERR (R200), and the word a read of
STATUS returns (R24). The core has no arithmetic flags (R40).
-/
namespace Sys2Proof.Machine

/-- R25: the SSTATE code. -/
def SessionState.code : SessionState → BitVec 3
  | .noSession => 0#3
  | .created => 1#3
  | .streaming => 2#3
  | .exhausted => 3#3
  | .closed => 4#3

/-- R200: the ERR code. -/
def ErrCode.code : ErrCode → BitVec 4
  | .ok => 0#4
  | .invalidKeyLength => 1#4
  | .invalidNonceLength => 2#4
  | .counterOverflow => 3#4
  | .illegalCommand => 4#4
  | .illegalState => 5#4
  | .invalidLength => 6#4

/-- R24: STATUS reads as `{20'b0, err, 2'b0, wign, done, busy, sstate}`. -/
def statusWord (s : State) : Word :=
  0#20 ++ s.err.code ++ 0#2 ++ BitVec.ofBool s.wign ++ BitVec.ofBool s.done
    ++ BitVec.ofBool s.busy ++ s.sstate.code

/-- R174: a live session, the states CLOSE accepts and XOR_CHUNK can stream in. -/
def SessionState.live : SessionState → Bool
  | .created | .streaming => true
  | .noSession | .exhausted | .closed => false

end Sys2Proof.Machine
end

