-- ==== Sys2Proof/Syntax.lean ====
section
/-!
DEFINITION. The commands of spec/opcode_table.json, one constructor per row, and the reasons a word
is no command (spec/30_encoding.md R82 to R88).
-/
namespace Sys2Proof

/-- The five commands. KLEN, NLEN and LEN are byte counts used as natural numbers (R85); WellFormed
says which of them an encoding can hold. -/
inductive Instr where
  /-- NOP (R170). -/
  | nop
  /-- CREATE_SESSION with its declared key and nonce lengths in bytes (R83, R172). -/
  | createSession (klen nlen : Nat)
  /-- GEN_BLOCK (R140). -/
  | genBlock
  /-- XOR_CHUNK with its chunk length in bytes (R84, R150). -/
  | xorChunk (len : Nat)
  /-- CLOSE (R174). -/
  | close
deriving DecidableEq, Repr

/-- Why bits are no command (R88). Each of the first two completes with IllegalCommand (R203). -/
inductive IllegalReason where
  /-- R88 (a): OPC in 0x05 to 0xFF. -/
  | reservedOpcode
  /-- R88 (b): an assigned OPC with a must-be-zero bit set. -/
  | mustBeZero
  /-- R80: a command is exactly one 32-bit word; these bytes are not four. -/
  | notOneWord
deriving DecidableEq, Repr

/-- A row of the opcode map (R87): a word `v` selects the row when `v & mask = pattern`. -/
structure OpcodeRow where
  mnemonic : String
  pattern : Word
  mask : Word
deriving DecidableEq, Repr

end Sys2Proof
end

