-- ==== Sys2Proof/WellFormed.lean ====
section
/-!
DEFINITION. Which commands an encoding can hold: KLEN, NLEN and LEN are 8-bit fields
(spec/30_encoding.md R83 to R85). Lengths that are well formed but wrong for the command (KLEN = 16,
LEN = 65) are well-formed commands that complete with an error code.
-/
namespace Sys2Proof

/-- R85: the byte counts of the command fit their 8-bit fields. -/
def Instr.wellFormed : Instr → Bool
  | .nop => true
  | .createSession klen nlen => decide (klen < 256) && decide (nlen < 256)
  | .genBlock => true
  | .xorChunk len => decide (len < 256)
  | .close => true

/-- `Instr.wellFormed` as a proposition. -/
abbrev Instr.WellFormed (i : Instr) : Prop := i.wellFormed = true

end Sys2Proof
end

