-- ==== Sys2Proof/Decode.lean ====
section
/-!
DEFINITION. Little-endian bytes (spec/00_scope.md R11), the command decoder and encoder
(spec/30_encoding.md R81 to R89) and the opcode map (R87).
-/
namespace Sys2Proof

/-! ### Byte order -/

/-- R11: `le32(b0, b1, b2, b3) = {b3, b2, b1, b0}`. -/
def le32 (b0 b1 b2 b3 : Byte) : Word := b3 ++ b2 ++ b1 ++ b0

/-- R11, R54: byte `m` of a word is its bits `[8m+7 : 8m]`. -/
def wordByte (w : Word) (m : Nat) : Byte := w.extractLsb' (8 * m) 8

/-- R11: `le32_bytes(w)`. -/
def le32Bytes (w : Word) : List Byte := [wordByte w 0, wordByte w 1, wordByte w 2, wordByte w 3]

/-! ### Fields -/

/-- R81: OPC = `v[7:0]`. -/
def opcField (v : Word) : Byte := v.extractLsb' 0 8

/-- R83: KLEN = `v[15:8]`, and R84: LEN = `v[15:8]`. -/
def field15to8 (v : Word) : Byte := v.extractLsb' 8 8

/-- R83: NLEN = `v[23:16]`. -/
def field23to16 (v : Word) : Byte := v.extractLsb' 16 8

/-- R82: format N's must-be-zero bits `v[31:8]`. -/
def mbzN (v : Word) : BitVec 24 := v.extractLsb' 8 24

/-- R83: format S's must-be-zero bits `v[31:24]`. -/
def mbzS (v : Word) : BitVec 8 := v.extractLsb' 24 8

/-- R84: format X's must-be-zero bits `v[31:16]`. -/
def mbzX (v : Word) : BitVec 16 := v.extractLsb' 16 16

/-! ### The decoder -/

/-- R88 (b): the command `i` if the word's must-be-zero bits are zero. -/
def ifZero {n : Nat} (mbz : BitVec n) (i : Instr) : Except IllegalReason Instr :=
  if mbz = 0#n then .ok i else .error .mustBeZero

/-- R89: the decoder, total on 32-bit words. -/
def decodeWord (v : Word) : Except IllegalReason Instr :=
  if opcField v = 0x00#8 then ifZero (mbzN v) .nop
  else if opcField v = 0x01#8 then
    ifZero (mbzS v) (.createSession (field15to8 v).toNat (field23to16 v).toNat)
  else if opcField v = 0x02#8 then ifZero (mbzN v) .genBlock
  else if opcField v = 0x03#8 then ifZero (mbzX v) (.xorChunk (field15to8 v).toNat)
  else if opcField v = 0x04#8 then ifZero (mbzN v) .close
  else .error .reservedOpcode

/-- R80, R54: a command's bytes, first byte lowest; anything but four bytes is no command. -/
def decodeBytes : List Byte → Except IllegalReason Instr
  | [b0, b1, b2, b3] => decodeWord (le32 b0 b1 b2 b3)
  | _ => .error .notOneWord

/-! ### The encoder -/

/-- R89: `encode`, the inverse of the decoder on the five constructors. -/
def encode : Instr → Word
  | .nop => 0x00000000#32
  | .createSession klen nlen =>
    0x00#8 ++ BitVec.ofNat 8 nlen ++ BitVec.ofNat 8 klen ++ 0x01#8
  | .genBlock => 0x00000002#32
  | .xorChunk len => 0x0000#16 ++ BitVec.ofNat 8 len ++ 0x03#8
  | .close => 0x00000004#32

/-- A command's four bytes in the core's byte order (R54). -/
def encodeBytes (i : Instr) : List Byte := le32Bytes (encode i)

/-! ### The opcode map -/

/-- R87: the mnemonic of a command. -/
def Instr.mnemonic : Instr → String
  | .nop => "NOP"
  | .createSession _ _ => "CREATE_SESSION"
  | .genBlock => "GEN_BLOCK"
  | .xorChunk _ => "XOR_CHUNK"
  | .close => "CLOSE"

/-- R87: the opcode map, as match and mask. -/
def opcodeMap : List OpcodeRow :=
  [⟨"NOP", 0x00000000#32, 0xFFFFFFFF#32⟩,
   ⟨"CREATE_SESSION", 0x00000001#32, 0xFF0000FF#32⟩,
   ⟨"GEN_BLOCK", 0x00000002#32, 0xFFFFFFFF#32⟩,
   ⟨"XOR_CHUNK", 0x00000003#32, 0xFFFF00FF#32⟩,
   ⟨"CLOSE", 0x00000004#32, 0xFFFFFFFF#32⟩]

/-- R87: "A word v selects the row whose (v & mask) = match". -/
def OpcodeRow.selects (r : OpcodeRow) (v : Word) : Bool := (v &&& r.mask) == r.pattern

/-- R87: the row a word selects, if any. -/
def opcodeRowOf (v : Word) : Option OpcodeRow := opcodeMap.find? (·.selects v)

/-! ### The host's numbering of a table row's bits -/

/-- The command this decoder reads from the table's bits `w`: one 32-bit word, the bits above `nbits`
zero, handed over as its four bytes in the core's byte order. No command is longer (R80). -/
def decodeTableWord (nbits w : Nat) : Option Instr :=
  if 32 < nbits then none
  else (decodeBytes (le32Bytes (BitVec.ofNat 32 (w % 2 ^ nbits)))).toOption

end Sys2Proof
end

