-- ==== Sys2Proof/Machine/Operands.lean ====
section
/-!
DEFINITION. The operands of the commands: bytes held in word registers (R34, R35, R54), byte strings
packed into words (R11, R98, R110), and the block index (R30, R130).
-/
namespace Sys2Proof.Machine

/-- R34, R35, R109: byte `j` of a register file is `v[j div 4][8·(j mod 4)+7 : 8·(j mod 4)]`. -/
def byteAt {n : Nat} (v : Vector Word n) (j : Nat) : Byte :=
  if h : j / 4 < n then wordByte v[j / 4] (j % 4) else 0#8

/-- R11: the words `w[k] = le32(B[4k], B[4k+1], B[4k+2], B[4k+3])` of the bytes `f 0, f 1, …`. -/
@[irreducible] def packWords (n : Nat) (f : Nat → Byte) : Vector Word n :=
  Vector.ofFn fun k => le32 (f (4 * k.val)) (f (4 * k.val + 1)) (f (4 * k.val + 2)) (f (4 * k.val + 3))

/-- R32, R110: the key words of a 32-byte key. -/
def keyOfBytes (K : Vector Byte 32) : KeyWords := packWords 8 fun j => K.toList.getD j 0#8

/-- R33, R110: the nonce words of a 12-byte nonce. -/
def nonceOfBytes (N : Vector Byte 12) : NonceWords := packWords 3 fun j => N.toList.getD j 0#8

/-- R98: the sixteen words of a chunk of at most 64 bytes, padded with zero bytes. -/
def blockOfBytes (B : List Byte) : Block := packWords 16 fun j => B.getD j 0#8

/-- R98: `le32_bytes(o_0) ++ le32_bytes(o_1) ++ …`, the bytes of a list of words. -/
def bytesOfWords (ws : List Word) : List Byte := ws.flatMap le32Bytes

/-- R98: the 64 bytes held in a block of words. -/
def bytesOfBlock (v : Block) : List Byte := bytesOfWords v.toList

/-- R130: `valid_index(i)` holds exactly when `i ≤ 2^32 − 1`. -/
def validIndex (i : Nat) : Bool := decide (i ≤ 2 ^ 32 - 1)

/-- R130: the counter word of a block index is `i[31:0]`. -/
def counterWord (i : Nat) : Word := BitVec.ofNat 32 i

/-- R35, R172, R174: a cleared data buffer. -/
def zeroBlock : Block := Vector.replicate 16 0#32

end Sys2Proof.Machine
end

