-- ==== Sys2Proof/Machine/Ops.lean ====
section
/-!
DEFINITION. The shared operations: the register map (R22), host reads and writes (R52, R53), issue
(R208), completion and `raise` (R202, R209), reset (R230), and the drift of the hidden datapath (U6).

The core has no trap: what it does for an error is `raiseError`, a completion with the error's code,
and there is no return operation beside it (R207, R210).
-/
namespace Sys2Proof.Machine

/-! ### The register map -/

/-- R22: the offset of a register. -/
def RegName.offset : RegName → Offset
  | .cmd => 0x00#8
  | .status => 0x04#8
  | .blkidxLo => 0x08#8
  | .blkidxHi => 0x0C#8
  | .nextBlkLo => 0x10#8
  | .nextBlkHi => 0x14#8
  | .key k => BitVec.ofNat 8 (0x20 + 4 * k.val)
  | .nonce k => BitVec.ofNat 8 (0x40 + 4 * k.val)
  | .din k => BitVec.ofNat 8 (0x80 + 4 * k.val)
  | .dout k => BitVec.ofNat 8 (0xC0 + 4 * k.val)

/-- R55: `off[1:0] = 0`. -/
def aligned (off : Offset) : Bool := off.extractLsb' 0 2 == 0#2

/-- The register of a word slot `off / 4`, by the ranges of R52; `none` for a reserved slot (R56). -/
def regOfSlot (n : Nat) : Option RegName :=
  if n = 0 then some .cmd
  else if n = 1 then some .status
  else if n = 2 then some .blkidxLo
  else if n = 3 then some .blkidxHi
  else if n = 4 then some .nextBlkLo
  else if n = 5 then some .nextBlkHi
  else if n < 8 then none
  else if h : n - 8 < 8 then some (.key ⟨n - 8, h⟩)
  else if h : n - 16 < 3 then some (.nonce ⟨n - 16, h⟩)
  else if n < 32 then none
  else if h : n - 32 < 16 then some (.din ⟨n - 32, h⟩)
  else if h : n - 48 < 16 then some (.dout ⟨n - 48, h⟩)
  else none

/-- R22, R56: the register at an offset; `none` for a reserved or misaligned offset. -/
def regAt (off : Offset) : Option RegName :=
  if aligned off then regOfSlot (off.toNat / 4) else none

/-- R50, R54: the offset that a host byte address selects in a core placed at `base`. -/
def offsetOfAddress (base addr : Nat) : Option Offset :=
  if base ≤ addr ∧ addr < base + 256 then some (BitVec.ofNat 8 (addr - base)) else none

/-! ### Host reads and writes -/

/-- R31, R35, R241: the exact value while BUSY = 0, and a free draw while BUSY = 1. -/
def exactUnlessBusy (s : State) (v : Word) : Word := if s.busy then Config.anyRead s.tick else v

/-- R52: what a read of a register returns. -/
def readReg (s : State) : RegName → Word
  | .cmd => 0#32
  | .status => statusWord s
  | .blkidxLo => s.blkidx.extractLsb' 0 32
  | .blkidxHi => s.blkidx.extractLsb' 32 32
  | .nextBlkLo => exactUnlessBusy s (s.nextBlk.extractLsb' 0 32)
  | .nextBlkHi => exactUnlessBusy s ((s.nextBlk.extractLsb' 32 1).zeroExtend 32)
  | .key _ => 0#32
  | .nonce k => s.nonce[k]
  | .din k => s.din[k]
  | .dout k => exactUnlessBusy s s.dout[k]

/-- R52: `MemRead(off, 4)` at an aligned offset; a reserved offset reads 0 (R56). -/
def memRead (s : State) (off : Offset) : Word :=
  match regAt off with
  | some r => readReg s r
  | none => 0#32

/-- R208: issue. -/
def issue (v : Word) (s : State) : State :=
  { s with pend := v, busy := true, done := false, wign := false }

/-- R53: the effect of a write to a register while BUSY = 0. -/
def writeReg (s : State) (v : Word) : RegName → State
  | .cmd => issue v s
  | .status => s
  | .blkidxLo => { s with blkidx := s.blkidx.extractLsb' 32 32 ++ v }
  | .blkidxHi => { s with blkidx := v ++ s.blkidx.extractLsb' 0 32 }
  | .nextBlkLo => s
  | .nextBlkHi => s
  | .key k => { s with key := s.key.set k v }
  | .nonce k => { s with nonce := s.nonce.set k v }
  | .din k => { s with din := s.din.set k v }
  | .dout _ => s

/-- R53: `MemWrite(off, 4, v)` at an aligned offset: ignored with WIGN set while BUSY = 1 (R240),
without effect at a reserved offset (R56). -/
def memWrite (s : State) (off : Offset) (v : Word) : State :=
  if s.busy then { s with wign := true }
  else
    match regAt off with
    | some r => writeReg s v r
    | none => s

/-! ### Completion -/

/-- R209: `complete(code)`: `err <- code; busy <- 0; done <- 1`. -/
def complete (c : ErrCode) (s : State) : State := { s with err := c, busy := false, done := true }

/-- R202: `raise E`: the command ends at once with code E and writes nothing more. -/
def raiseError (e : ErrCode) (s : State) : Host.Outcome State Fault Refusal := .next (complete e s)

/-! ### Reset and the hidden datapath -/

/-- R230, R231: reset puts every element of R20 at its reset value and abandons a pending command.
The datapath is unspecified after it (U6), and the events to come, the host's last read value and
the draw counter are not the core's. -/
def resetCore (s : State) : State :=
  { State.reset with lanes := s.lanes, turns := s.turns, readData := s.readData, tick := s.tick }

/-- U6: between any two steps the datapath's working storage may come to hold any value (log entry 4). -/
def drift (s : State) : State :=
  { s with lanes := (List.range Config.nLanes).map (Config.laneContents s.tick), tick := s.tick + 1 }

end Sys2Proof.Machine
end

