-- ==== Sys2Proof/Machine/Permutation.lean ====
section
/-!
DEFINITION. The ARX permutation (spec/40_permutation.md R100 to R113): pure functions that read only
their arguments and write no architectural state (R100, R111). permute20 and chachaBlockWords are
irreducible, so that comparing two states never evaluates twenty rounds; their equations are in
Laws/Permutation.lean.
-/
namespace Sys2Proof.Machine

/-- R10: 32-bit circular left rotation, `((a << n) | (a >> (32 − n)))[31:0]` for 0 < n < 32. -/
def rotl (a : Word) (n : Nat) : Word := (a <<< n) ||| (a >>> (32 - n))

/-- R101: SIGMA, the bytes "expand 32-byte k" as four little-endian words. -/
def sigma : Vector Word 4 :=
  #v[le32 0x65#8 0x78#8 0x70#8 0x61#8, le32 0x6E#8 0x64#8 0x20#8 0x33#8, le32 0x32#8 0x2D#8 0x62#8 0x79#8,
     le32 0x74#8 0x65#8 0x20#8 0x6B#8]

/-- R102: `init_state(k, ctr, n)`. -/
def initState (k : KeyWords) (ctr : Word) (n : NonceWords) : Block :=
  #v[sigma[0], sigma[1], sigma[2], sigma[3],
     k[0], k[1], k[2], k[3], k[4], k[5], k[6], k[7],
     ctr, n[0], n[1], n[2]]

/-- R103: `QR(a, b, c, d)`, the twelve operations in this order. -/
def quarterRound (a b c d : Word) : Word × Word × Word × Word :=
  let a := a + b; let d := d ^^^ a; let d := rotl d 16
  let c := c + d; let b := b ^^^ c; let b := rotl b 12
  let a := a + b; let d := d ^^^ a; let d := rotl d 8
  let c := c + d; let b := b ^^^ c; let b := rotl b 7
  (a, b, c, d)

/-- R104, R105: `(x[i], x[j], x[k], x[l]) <- QR(x[i], x[j], x[k], x[l])`. -/
def quarterRoundAt (i j k l : Fin 16) (x : Block) : Block :=
  match quarterRound x[i] x[j] x[k] x[l] with
  | (a, b, c, d) => (((x.set i a).set j b).set k c).set l d

/-- R104: `column_round`. -/
def columnRound (x : Block) : Block :=
  let x := quarterRoundAt 0 4 8 12 x
  let x := quarterRoundAt 1 5 9 13 x
  let x := quarterRoundAt 2 6 10 14 x
  quarterRoundAt 3 7 11 15 x

/-- R105: `diagonal_round`. -/
def diagonalRound (x : Block) : Block :=
  let x := quarterRoundAt 0 5 10 15 x
  let x := quarterRoundAt 1 6 11 12 x
  let x := quarterRoundAt 2 7 8 13 x
  quarterRoundAt 3 4 9 14 x

/-- R106: `double_round(x) = diagonal_round(column_round(x))`. -/
def doubleRound (x : Block) : Block := diagonalRound (columnRound x)

/-- R107: `permute20(S) = double_round^10(S)`. -/
@[irreducible] def permute20 (S : Block) : Block := doubleRound^[Config.doubleRounds] S

/-- R108: the feed-forward, `O[i] <- X[i] + S[i]` modulo 2^32. -/
def feedForward (X S : Block) : Block := Vector.ofFn fun i => X[i] + S[i]

/-- R108: `chacha_block_words(k, n, ctr)`. -/
@[irreducible] def chachaBlockWords (k : KeyWords) (n : NonceWords) (ctr : Word) : Block :=
  let S := initState k ctr n
  feedForward (permute20 S) S

/-- R109: the 64 bytes of a block of words, each word little-endian. -/
def serialize (O : Block) : BlockBytes := Vector.ofFn fun j => byteAt O j.val

/-- R109: `chacha_block(k, n, ctr)`. -/
def chachaBlock (k : KeyWords) (n : NonceWords) (ctr : Word) : BlockBytes :=
  serialize (chachaBlockWords k n ctr)

/-! ### The round-iterative datapath -/

/-- R113, `start`: `S <- init_state(k, ctr, n); X <- S; RND <- 0`. -/
def laneStart (k : KeyWords) (n : NonceWords) (ctr : Word) : Lane :=
  ⟨initState k ctr n, initState k ctr n, 0⟩

/-- R113, `step`: while RND < 20, a column round at an even RND and a diagonal round at an odd one. -/
def laneStep (a : Lane) : Lane :=
  if h : a.rnd.val < 20 then
    { a with
      x := if a.rnd.val % 2 = 0 then columnRound a.x else diagonalRound a.x
      rnd := ⟨a.rnd.val + 1, by omega⟩ }
  else a

/-- R113, `finish`: `O[i] <- X[i] + S[i]`. -/
def laneFinish (a : Lane) : Block := feedForward a.x a.s

/-! ### The schedule as a parameter -/

/-- R7 (c), R113, U5: DATAPATH_SCHEDULE: what the datapath does to the working copy in each of its
steps, in order. -/
abbrev DatapathSchedule := List (Block → Block)

/-- R113: the working copy after every step of a schedule. -/
def DatapathSchedule.run (σ : DatapathSchedule) (S : Block) : Block := σ.foldl (fun X f => f X) S

/-- R7 (c), R113: a schedule is allowed exactly when its result is permute20's. -/
def AllowedSchedule (f : Block → Block) : Prop := ∀ S, f S = permute20 S

/-- R113: the reference schedule, one round per step (20 steps). -/
def roundSchedule : DatapathSchedule := (List.replicate 10 [columnRound, diagonalRound]).flatten

/-- R113: one quarter-round per step (80 steps). -/
def quarterRoundSchedule : DatapathSchedule :=
  (List.replicate 10
    [quarterRoundAt 0 4 8 12, quarterRoundAt 1 5 9 13, quarterRoundAt 2 6 10 14,
     quarterRoundAt 3 7 11 15, quarterRoundAt 0 5 10 15, quarterRoundAt 1 6 11 12,
     quarterRoundAt 2 7 8 13, quarterRoundAt 3 4 9 14]).flatten

/-- R113: one double round per step (10 steps). -/
def doubleRoundSchedule : DatapathSchedule := List.replicate 10 doubleRound

/-- R113: a fully unrolled datapath (one step). -/
def unrolledSchedule : DatapathSchedule := [permute20]

/-- A permutation unit: the output words of a key, a nonce and a counter word. -/
abbrev BlockUnit := KeyWords → NonceWords → Word → Block

/-- R108, R113: the unit whose datapath follows the schedule `σ`. -/
def scheduledUnit (σ : DatapathSchedule) : BlockUnit := fun k n ctr =>
  feedForward (σ.run (initState k ctr n)) (initState k ctr n)

end Sys2Proof.Machine
end

