-- ==== Sys2Proof/Machine/Keystream.lean ====
section
/-!
DEFINITION. The counter-block sequencer's inputs (spec/41_sequencer.md R135), the session keystream
(spec/42_keystream.md R142) and GEN_BLOCK (R140).
-/
namespace Sys2Proof.Machine

/-- R162: a block source: the 64 bytes of the block at an index. -/
abbrev BlockSource := Nat → BlockBytes

/-- R135: the block source of a unit, a key and a nonce: state word 12 is the index itself (R130), and
the nonce is neither combined with the counter nor incremented. DESIGN CHOICE (log entry 22): the rules
give a counter word for valid indices only; as a total function this goes on, for an index of 2^32 or
more, with the block of the index modulo 2^32. No command reaches it there. -/
def sourceOf (u : BlockUnit) (k : KeyWords) (n : NonceWords) : BlockSource := fun i =>
  serialize (u k n (counterWord i))

/-- R135: the block source of a key and a nonce. What it gives beyond the last valid index is the
model's choice (log entry 22). -/
def chachaSource (k : KeyWords) (n : NonceWords) : BlockSource := sourceOf chachaBlockWords k n

/-- R142: byte `j` of the keystream of a block source: byte `j mod 64` of block `j div 64`. R142's
sequence ends at byte 2^38 − 1; what this gives from there on is the model's choice (log entry 22). -/
def keystreamByte (block : BlockSource) (j : Nat) : Byte := (block (j / 64)).toList.getD (j % 64) 0#8

/-- R142: the first `m` blocks of the keystream `block 0 ++ block 1 ++ …` from block `i` on, with the
same choice beyond the last valid index (log entry 22). -/
def keystreamFrom (block : BlockSource) (i : Nat) : Nat → List Byte
  | 0 => []
  | m + 1 => (block i).toList ++ keystreamFrom block (i + 1) m

/-- R140: what a successful GEN_BLOCK writes beside its completion: DOUT, from the staging registers. -/
def generateBlockOn (u : BlockUnit) (s : State) : State :=
  { s with dout := u s.key s.nonce (counterWord s.blkidx.toNat) }

/-- R140: what a successful GEN_BLOCK writes, by R108's function. -/
def generateBlock (s : State) : State := generateBlockOn chachaBlockWords s

/-- R140: GEN_BLOCK on a permutation unit, whatever the session state. -/
def genBlockOn (u : BlockUnit) (s : State) : Host.Outcome State Fault Refusal :=
  if validIndex s.blkidx.toNat then .next (complete .ok (generateBlockOn u s))
  else raiseError .counterOverflow s

/-- R140: GEN_BLOCK. -/
def execGenBlock (s : State) : Host.Outcome State Fault Refusal := genBlockOn chachaBlockWords s

end Sys2Proof.Machine
end

