-- ==== Sys2Proof/Machine/Session.lean ====
section
/-!
DEFINITION. The session commands NOP, CREATE_SESSION and CLOSE (spec/44_session.md R170, R172, R174).
Each meaning is the command's pseudocode with its completion (R209).
-/
namespace Sys2Proof.Machine

/-- R170: NOP. -/
def execNop (s : State) : Host.Outcome State Fault Refusal := .next (complete .ok s)

/-- R172: what a successful CREATE_SESSION writes beside its completion. -/
def startSession (s : State) : State :=
  { s with skey := s.key, snonce := s.nonce, nextBlk := 0#33, dout := zeroBlock, sstate := .created }

/-- R172: CREATE_SESSION, the key length checked before the nonce length (R205). -/
def execCreateSession (klen nlen : Nat) (s : State) : Host.Outcome State Fault Refusal :=
  if klen ≠ Config.keyBytes then raiseError .invalidKeyLength s
  else if nlen ≠ Config.nonceBytes then raiseError .invalidNonceLength s
  else .next (complete .ok (startSession s))

/-- R174: what a successful CLOSE writes beside its completion. NEXT_BLK is kept. -/
def endSession (s : State) : State :=
  { s with skey := Vector.replicate 8 0#32, snonce := Vector.replicate 3 0#32, dout := zeroBlock,
           sstate := .closed }

/-- R174: CLOSE. -/
def execClose (s : State) : Host.Outcome State Fault Refusal :=
  if s.sstate.live then .next (complete .ok (endSession s)) else raiseError .illegalState s

end Sys2Proof.Machine
end

