-- ==== Sys2Proof/Machine/XorEngine.lean ====
section
/-!
DEFINITION. The streaming XOR engine (spec/43_xor_engine.md): XOR_CHUNK (R150), written over an
abstract block source (R162), and the message-level reference function `stream_xor` (R156).
-/
namespace Sys2Proof.Machine

/-- R150, R151: lane `j` of a chunk: input XOR keystream inside the lane mask `j < len`, 0x00 outside. -/
def xorLane (len : Nat) (din : Block) (ks : BlockBytes) (j : Nat) : Byte :=
  if j < len then byteAt din j ^^^ ks.toList.getD j 0#8 else 0x00#8

/-- R150: what a consuming XOR_CHUNK writes beside its completion. -/
def consumeBlock (ks : BlockBytes) (len : Nat) (s : State) : State :=
  { s with dout := packWords 16 (xorLane len s.din ks), nextBlk := s.nextBlk + 1#33, sstate := .streaming }

/-- R150: XOR_CHUNK in a live session, after the state checks. LEN = 0 is tested before the index. -/
def xorChunkLive (block : BlockSource) (len : Nat) (s : State) : Host.Outcome State Fault Refusal :=
  if len = 0 then .next (complete .ok s)
  else if validIndex s.nextBlk.toNat then
    .next (complete .ok (consumeBlock (block s.nextBlk.toNat) len s))
  else raiseError .counterOverflow { s with sstate := .exhausted }

/-- R150: XOR_CHUNK over a block source, its checks in the order of R205. -/
def xorChunkWith (block : BlockSource) (len : Nat) (s : State) : Host.Outcome State Fault Refusal :=
  if len > Config.blockBytes then raiseError .invalidLength s
  else
    match s.sstate with
    | .noSession => raiseError .illegalState s
    | .closed => raiseError .illegalState s
    | .exhausted => raiseError .counterOverflow s
    | .created => xorChunkLive block len s
    | .streaming => xorChunkLive block len s

/-- R150, R162: XOR_CHUNK, whose only block source is the session's key and nonce copies. -/
def execXorChunk (len : Nat) (s : State) : Host.Outcome State Fault Refusal :=
  xorChunkWith (chachaSource s.skey s.snonce) len s

/-! ### Messages -/

/-- R156: ⌈N/64⌉, the number of chunks of an N-byte message. -/
def chunkCount (n : Nat) : Nat := (n + 63) / 64

/-- R156, R157: a message cut into chunks of 64 bytes, the last one possibly shorter; `fuel` bounds
the number of chunks. -/
def chunksUpTo : Nat → List Byte → List (List Byte)
  | 0, _ => []
  | _ + 1, [] => []
  | fuel + 1, b :: bs => (b :: bs).take 64 :: chunksUpTo fuel ((b :: bs).drop 64)

/-- R156, R157: the chunks of a message. -/
def chunksOf (P : List Byte) : List (List Byte) := chunksUpTo (chunkCount P.length) P

/-- R156: one chunk against its block: `C[j] <- P[j] ^ ks[j]`. -/
def xorBytes (P : List Byte) (ks : List Byte) : List Byte := List.zipWith (· ^^^ ·) P ks

/-- R156: the loop over the chunks, chunk `c` against block `s + c`. -/
def xorChunks (block : BlockSource) : Nat → List (List Byte) → List Byte
  | _, [] => []
  | i, c :: cs => xorBytes c (block i).toList ++ xorChunks block (i + 1) cs

/-- R156: `stream_xor` over a block source: CounterOverflow if a block beyond the last valid index
would be needed. -/
def streamXor (block : BlockSource) (i : Nat) (P : List Byte) : Except ErrCode (List Byte) :=
  if chunkCount P.length > 0 ∧ i + chunkCount P.length - 1 > 2 ^ 32 - 1 then .error .counterOverflow
  else .ok (xorChunks block i (chunksOf P))

end Sys2Proof.Machine
end

