-- ==== Sys2Proof/Machine/Dispatch.lean ====
section
/-! DEFINITION. `exec`: one arm per command of spec/opcode_table.json, each a direct call of its meaning (R209, `run`). -/
namespace Sys2Proof.Machine

def exec (i : Instr) (s : State) : Host.Outcome State Fault Refusal :=
  match i with
  | .nop => Sys2Proof.Machine.execNop s
  | .createSession klen nlen => Sys2Proof.Machine.execCreateSession klen nlen s
  | .genBlock => Sys2Proof.Machine.execGenBlock s
  | .xorChunk len => Sys2Proof.Machine.execXorChunk len s
  | .close => Sys2Proof.Machine.execClose s

end Sys2Proof.Machine
end

