-- ==== Sys2Proof/Machine/Turns.lean ====
section
/-!
DEFINITION. What each kind of event does (spec/60_exceptions.md R212): the core's completion step
(R209), a host access (R52, R53, R55) and reset (R230), and which event comes next.
-/
namespace Sys2Proof.Machine

/-- How a decoded command runs: `exec`, or `exec` on a datapath schedule. -/
abbrev Runner := Instr → State → Host.Outcome State Fault Refusal

/-- R209: the completion step: decode PEND; an illegal word completes with IllegalCommand and changes
nothing else (R203); a command runs. -/
def completeStepWith (run : Runner) (s : State) : Host.Outcome State Fault Refusal :=
  match decodeWord s.pend with
  | .error _ => raiseError .illegalCommand s
  | .ok i => run i s

/-- R209, R219: the core's turn: its step is enabled exactly when BUSY = 1; idle, it retains all state. -/
def coreTurnWith (run : Runner) (s : State) : Host.Outcome State Fault Refusal :=
  if s.busy then completeStepWith run s else .next s

/-- R209: the core's turn, its commands run by `exec`. -/
def coreTurn (s : State) : Host.Outcome State Fault Refusal := coreTurnWith exec s

/-- R55: an access of another width, or misaligned, is refused. -/
def checkAccess (w : Width) (off : Offset) (t : State) : Host.Outcome State Fault Refusal :=
  match w with
  | .w8 => .refused .accessWidth
  | .w16 => .refused .accessWidth
  | .w64 => .refused .accessWidth
  | .w32 => if aligned off then .next t else .refused .misalignedAccess

/-- R52, R53: a host access. A read changes no state of the core; its value stands in `readData`. -/
def hostTurn (a : Access) (s : State) : Host.Outcome State Fault Refusal :=
  match a with
  | .read w off => checkAccess w off { s with readData := some (memRead s off) }
  | .write w off v => checkAccess w off (memWrite s off v)

/-- R212: the effect of one event. -/
def runTurnWith (run : Runner) (t : Turn) (s : State) : Host.Outcome State Fault Refusal :=
  match t with
  | .host a => hostTurn a s
  | .core => coreTurnWith run s
  | .reset => .next (resetCore s)

/-- R212: the effect of one event, commands run by `exec`. -/
def runTurn (t : Turn) (s : State) : Host.Outcome State Fault Refusal := runTurnWith exec t s

/-- The event that comes next; with none listed the core has the turn (log entry 2). -/
def nextTurn (s : State) : Turn := s.turns.headD .core

/-- The state the next event acts on: the event taken off the list, the hidden datapath drifted. -/
def turnState (s : State) : State := drift { s with turns := s.turns.tail }

end Sys2Proof.Machine
end

