-- ==== Sys2Proof/Machine/Step.lean ====
section
/-!
DEFINITION. One step of the machine: the next event happens (R8, R212). A command is fetched from
PEND, where its issue put it (R23, R66), and runs at the core's turn (R209).
-/
namespace Sys2Proof.Machine

/-- R8: one step: the next event, whichever of the host, the core and reset has the turn. -/
def step (s : State) : Host.Outcome State Fault Refusal := runTurn (nextTurn s) (turnState s)

/-- The command word `w` as the issued command whose completion is the very next step: what a write of
`w` to CMD does (R208), with the core's turn next (log entry 7). -/
def State.withFetchWord (s : State) (nbits w : Nat) : State :=
  { issue (BitVec.ofNat 32 (w % 2 ^ nbits)) s with turns := .core :: s.turns }

end Sys2Proof.Machine
end

