-- ==== Sys2Proof/Machine/HostNotation.lean ====
section
/-!
DEFINITION. The host agent: the host-program notation and its pseudo-instructions
(spec/30_encoding.md R95 to R99), the host and the core together (spec/00_scope.md R8), and the host's
procedures: the chunk loop (R157) and the source's four calls (R180).
-/
namespace Sys2Proof.Machine

/-! ### Programs -/

/-- R95, R96: a label of the program's own, or the fresh one of the pseudo-instruction on a line. -/
inductive Label where
  | user (n : Nat)
  | fresh (line : Nat)
deriving DecidableEq, Repr

/-- R95: the statements of a host program. `failUnless` is the branch of `expect` (R99). -/
inductive Stmt where
  | wr (r : RegName) (imm : Word)
  | rd (r : RegName) (t : Nat)
  | label (l : Label)
  | bnz (t : Nat) (mask : Word) (l : Label)
  | bz (t : Nat) (mask : Word) (l : Label)
  | failUnless (t : Nat) (imm : Word)
  | fail
  | halt
deriving DecidableEq, Repr

/-- R95 to R99: a line of a host program: a statement or a pseudo-instruction, with the host
variables it binds. -/
inductive Line where
  | stmt (st : Stmt)
  | wait (t : Nat)
  | cmd (i : Instr)
  | cmdw (i : Instr) (t : Nat)
  | ldkey (K : Vector Byte 32)
  | ldnonce (N : Vector Byte 12)
  | ldidx (i : BitVec 64)
  | lddin (B : List Byte)
  | rddout (t : Nat)
  | expect (r : RegName) (imm : Word) (t : Nat)
deriving DecidableEq, Repr

/-- R97, R98: the operands a line may have: encodable commands, and chunks of at most 64 bytes. -/
def Line.wellFormed : Line → Bool
  | .cmd i => i.wellFormed
  | .cmdw i _ => i.wellFormed
  | .lddin B => decide (B.length ≤ 64)
  | .stmt _ => true
  | .wait _ => true
  | .ldkey _ => true
  | .ldnonce _ => true
  | .ldidx _ => true
  | .rddout _ => true
  | .expect _ _ _ => true

/-- R98: `ldkey K`. -/
def ldkeyWrites (K : Vector Byte 32) : List (RegName × Word) :=
  (List.finRange 8).map fun k => (.key k, (keyOfBytes K)[k])

/-- R98: `ldnonce N`. -/
def ldnonceWrites (N : Vector Byte 12) : List (RegName × Word) :=
  (List.finRange 3).map fun k => (.nonce k, (nonceOfBytes N)[k])

/-- R98: `ldidx i`. -/
def ldidxWrites (i : BitVec 64) : List (RegName × Word) :=
  [(.blkidxLo, i.extractLsb' 0 32), (.blkidxHi, i.extractLsb' 32 32)]

/-- R98: `lddin B`, whose domain is at most 64 bytes. Of a longer B this takes the first 64 bytes, which
is the model's choice (log entry 21); a program with such a line is malformed and never runs it. -/
def lddinWrites (B : List Byte) : List (RegName × Word) :=
  (List.finRange 16).map fun k => (.din k, (blockOfBytes B)[k])

/-- R98: the reads of `rddout`, in order. -/
def doutRegs : List RegName := (List.finRange 16).map .dout

/-- R95: each register write as a statement. -/
def wrStmts (ws : List (RegName × Word)) : List Stmt := ws.map fun p => .wr p.1 p.2

/-- R95: register reads as statements, bound to the variables `t`, `t + 1`, … -/
def rdStmts (t : Nat) : List RegName → List Stmt
  | [] => []
  | r :: rs => .rd r t :: rdStmts (t + 1) rs

/-- R96: `wait`, with a fresh label. -/
def waitStmts (line t : Nat) : List Stmt :=
  [.label (.fresh line), .rd .status t, .bnz t 0x00000008#32 (.fresh line)]

/-- R96 to R99: the expansion of a line; `line` makes its label fresh. Of an operand that does not fit its
8-bit field, which R97 gives no meaning, the word has the low 8 bits: the model's choice (log entry
21); a program with such a line is malformed and never runs it. -/
def expandLine (line : Nat) : Line → List Stmt
  | .stmt st => [st]
  | .wait t => waitStmts line t
  | .cmd i => [.wr .cmd (encode i)]
  | .cmdw i t => .wr .cmd (encode i) :: waitStmts line t
  | .ldkey K => wrStmts (ldkeyWrites K)
  | .ldnonce N => wrStmts (ldnonceWrites N)
  | .ldidx i => wrStmts (ldidxWrites i)
  | .lddin B => wrStmts (lddinWrites B)
  | .rddout t => rdStmts t doutRegs
  | .expect r imm t => [.rd r t, .failUnless t imm]

/-- R95: a host program's statements, line by line. -/
def expandProgram (ls : List Line) : List Stmt := ls.zipIdx.flatMap fun p => expandLine p.2 p.1

/-! ### The host and the core together -/

/-- R95: how a host program stands. `malformed` is a program the notation gives no meaning: an
unbound variable, a missing label, no statement after the last (log entry 14), or a line whose operand
is outside its rule's domain (log entry 21). -/
inductive HostStatus where
  | running | halted | failed | malformed
deriving DecidableEq, Repr

/-- R8, R95: the host: its program, its place in it, its variables, latest binding first. -/
structure HostAgent where
  prog : List Stmt
  pos : Nat
  vars : List (Nat × Word)
  status : HostStatus
deriving DecidableEq, Repr

/-- R8: the two agents. -/
structure System where
  core : State
  host : HostAgent
deriving DecidableEq, Repr

/-- R8, R212: whose step it is, or reset. -/
inductive Agent where
  | host | core | reset
deriving DecidableEq, Repr

/-- The core takes one step in which the event is `t`, and the host becomes `h` of the core's new state.
Here the schedule orders the events, so `t` takes the place of the core's own list (log entry 2). -/
def System.event (y : System) (t : Turn) (h : State → HostAgent) :
    Host.Outcome System Fault Refusal :=
  match step { y.core with turns := [t] } with
  | .next c => .next ⟨c, h c⟩
  | .fault r => .fault r
  | .refused r => .refused r

/-- The host goes on with its next statement. -/
def HostAgent.advance (h : HostAgent) : HostAgent := { h with pos := h.pos + 1 }

/-- R95: a taken branch to a label. -/
def HostAgent.jump (h : HostAgent) (l : Label) : HostAgent :=
  match h.prog.findIdx? (· == .label l) with
  | some n => { h with pos := n }
  | none => { h with status := .malformed }

/-- R95: a branch to `l` when the value of variable `t` satisfies `c`. -/
def HostAgent.branch (h : HostAgent) (t : Nat) (c : Word → Bool) (l : Label) : HostAgent :=
  match h.vars.lookup t with
  | none => { h with status := .malformed }
  | some v => if c v then h.jump l else h.advance

/-- R99: `expect` fails unless the variable equals the word. -/
def HostAgent.require (h : HostAgent) (t : Nat) (imm : Word) : HostAgent :=
  match h.vars.lookup t with
  | none => { h with status := .malformed }
  | some v => if v = imm then h.advance else { h with status := .failed }

/-- R95: `rd` binds a variable to what the read returned. -/
def HostAgent.bind (h : HostAgent) (t : Nat) (c : State) : HostAgent :=
  { h with pos := h.pos + 1, vars := (t, c.readData.getD 0#32) :: h.vars }

/-- The words bound to the variables `t` to `t + n - 1`; `none` if one of them is unbound. -/
def HostAgent.words (h : HostAgent) (t : Nat) : Nat → Option (List Word)
  | 0 => some []
  | n + 1 =>
    match h.vars.lookup t, h.words (t + 1) n with
    | some w, some ws => some (w :: ws)
    | none, _ => none
    | some _, none => none

/-- R98: O of `rddout -> O`, formed from the sixteen words that the line bound to `t` to `t + 15` (log
entry 14): `O = le32_bytes(o_0) ++ … ++ le32_bytes(o_15)`. -/
def HostAgent.readout (h : HostAgent) (t : Nat) : Option (List Byte) :=
  (h.words t doutRegs.length).map bytesOfWords

/-- R95: the host executes one statement. Only `wr` and `rd` are R8's host steps and reach the core. That a
label, a branch, `fail` and `halt` each take a scheduled turn of their own, with the core as it was, is the
model's choice (log entry 14). -/
def System.execStmt (y : System) (st : Stmt) : Host.Outcome System Fault Refusal :=
  match st with
  | .wr r imm => y.event (.host (.write .w32 r.offset imm)) fun _ => y.host.advance
  | .rd r t => y.event (.host (.read .w32 r.offset)) fun c => y.host.bind t c
  | .label _ => .next { y with host := y.host.advance }
  | .bnz t mask l => .next { y with host := y.host.branch t (fun v => v &&& mask != 0#32) l }
  | .bz t mask l => .next { y with host := y.host.branch t (fun v => v &&& mask == 0#32) l }
  | .failUnless t imm => .next { y with host := y.host.require t imm }
  | .fail => .next { y with host := { y.host with status := .failed } }
  | .halt => .next { y with host := { y.host with status := .halted } }

/-- R8, R95: the host's turn, one statement of its program. A program that has ended does nothing more in
its turns: the model's choice (log entry 14), as is the turn of a statement that makes no access. -/
def System.hostStep (y : System) : Host.Outcome System Fault Refusal :=
  if y.host.status = .running then
    match y.host.prog[y.host.pos]? with
    | some st => y.execStmt st
    | none => .next { y with host := { y.host with status := .malformed } }
  else .next y

/-- R8: one turn of the two agents; the host's may be a statement that makes no access (log entry 14).
Reset is the core's: the host program goes on. -/
def System.step (y : System) (a : Agent) : Host.Outcome System Fault Refusal :=
  match a with
  | .host => y.hostStep
  | .core => y.event .core fun _ => y.host
  | .reset => y.event .reset fun _ => y.host

/-- R8: a run under a schedule: any interleaving of the two agents and reset. -/
def System.run : List Agent → System → Host.Outcome System Fault Refusal
  | [], y => .next y
  | a :: as, y =>
    match y.step a with
    | .next z => System.run as z
    | .fault r => .fault r
    | .refused r => .refused r

/-- R8: an unending schedule of the two agents and reset. -/
abbrev Schedule := Nat → Agent

/-- R8: the first `n` turns of a run under an unending schedule. -/
def System.runUnder (σ : Schedule) (n : Nat) (y : System) : Host.Outcome System Fault Refusal :=
  System.run ((List.range n).map σ) y

/-- R209: after `n` turns the core's completion step is enabled. -/
def System.BusyAfter (σ : Schedule) (n : Nat) (y : System) : Prop :=
  ∃ z, y.runUnder σ n = .next z ∧ z.core.busy = true

/-- R8, R248: weak fairness of the core's completion step: where it is enabled without end from some turn
on, the core has a turn from there on. Schedules in general (`System.run`) need not be fair, so a claim
that a `wait` terminates has this as its premise (log entry 2). -/
def WeaklyFair (σ : Schedule) (y : System) : Prop :=
  ∀ n, (∀ m, n ≤ m → y.BusyAfter σ m) → ∃ m, n ≤ m ∧ σ m = .core

/-- The host goes on polling: it has a turn again and again. The premise, beside `WeaklyFair`, of a claim that a
`wait` terminates; R8 schedules the host freely, and that it goes on is the model's reading (log entry 2). -/
def HostGoesOn (σ : Schedule) : Prop := ∀ n, ∃ m, n ≤ m ∧ σ m = .host

/-- R96: the host stands at a `wait`: its three statements come next, and its label is found there. -/
structure AtWait (h : HostAgent) (line t : Nat) : Prop where
  running : h.status = .running
  here : waitStmts line t <+: h.prog.drop h.pos
  label : h.prog.findIdx? (· == .label (.fresh line)) = some h.pos

/-- R95: a host program at its start, beside a core. A program with a line outside the domain of R97 or
R98 is malformed from the start, as every program without a meaning is (log entries 14 and 21). -/
def System.start (ls : List Line) (s : State) : System :=
  ⟨s, ⟨expandProgram ls, 0, [], if ls.all Line.wellFormed then .running else .malformed⟩⟩

/-! ### The host's procedures -/

/-- R98: the host's writes, in order. -/
def hostWrites (ws : List (RegName × Word)) (s : State) : State :=
  ws.foldl (fun t p => memWrite t p.1.offset p.2) s

/-- R97: `cmdw`, as the core sees it: the write to CMD, then the completion step, which the host
awaits by polling (R96). Irreducible, as the permutation is. -/
@[irreducible] def runCommand (i : Instr) (s : State) : Host.Outcome State Fault Refusal :=
  coreTurn (memWrite s RegName.cmd.offset (encode i))

/-- R52, R241: one host read, a step of its own with a draw of its own (log entries 3, 4 and 9): the word
it returns and the state it leaves. -/
def hostRead (r : RegName) (s : State) : Word × State :=
  (memRead (drift s) r.offset, { drift s with readData := some (memRead (drift s) r.offset) })

/-- R98: the host's reads, in order. -/
def hostReads : List RegName → State → List Word × State
  | [], s => ([], s)
  | r :: rs, s =>
    ((hostRead r s).1 :: (hostReads rs (hostRead r s).2).1, (hostReads rs (hostRead r s).2).2)

/-- R98: `rddout -> O`, sixteen separate reads: O and the state they leave. -/
def readDout (s : State) : List Byte × State :=
  (bytesOfWords (hostReads doutRegs s).1, (hostReads doutRegs s).2)

/-- R157: what the chunk loop leaves: the output so far, the code it stopped with, the core. -/
structure MessageResult where
  out : List Byte
  err : ErrCode
  core : State
deriving DecidableEq, Repr

/-- R157: the host's chunking procedure, chunk by chunk; it stops at the first error. -/
def sendChunks : List (List Byte) → State → Option MessageResult
  | [], s => some ⟨[], .ok, s⟩
  | c :: cs, s =>
    match runCommand (.xorChunk c.length) (hostWrites (lddinWrites c) s) with
    | .next t =>
      if t.err = .ok then
        match sendChunks cs (readDout t).2 with
        | some r => some ⟨(readDout t).1.take c.length ++ r.out, r.err, r.core⟩
        | none => none
      else some ⟨[], t.err, t⟩
    | .fault _ => none
    | .refused _ => none

/-- R180: `encrypt(session, P)`, and R158: `decrypt`, the identical operation. -/
def sendMessage (P : List Byte) (s : State) : Option MessageResult := sendChunks (chunksOf P) s

/-- R180: `create_session(key, nonce)`. -/
def hostCreateSession (K : Vector Byte 32) (N : Vector Byte 12) (s : State) :
    Host.Outcome State Fault Refusal :=
  runCommand (.createSession Config.keyBytes Config.nonceBytes)
    (hostWrites (ldnonceWrites N) (hostWrites (ldkeyWrites K) s))

/-- R180: `generate_keystream_block(key, nonce, counter)`, less the final `rddout`. -/
def hostGenerateBlock (K : Vector Byte 32) (N : Vector Byte 12) (i : BitVec 64) (s : State) :
    Host.Outcome State Fault Refusal :=
  runCommand .genBlock
    (hostWrites (ldidxWrites i) (hostWrites (ldnonceWrites N) (hostWrites (ldkeyWrites K) s)))

end Sys2Proof.Machine
end

