-- ==== Sys2Proof/Machine/Schedule.lean ====
section
/-!
DEFINITION. The machine with DATAPATH_SCHEDULE as its argument (spec/00_scope.md R7 (c), spec/40_permutation.md
R113, spec/93_implementation_defined.md U5). The machine of Step.lean computes a block by R108's function; this one
computes it by the given schedule, and everything else is shared.
-/
namespace Sys2Proof.Machine

/-- R113: GEN_BLOCK and XOR_CHUNK compute their block by the schedule `σ`; the other commands compute
no block. -/
def execOn (σ : DatapathSchedule) (i : Instr) (s : State) : Host.Outcome State Fault Refusal :=
  match i with
  | .nop => execNop s
  | .createSession klen nlen => execCreateSession klen nlen s
  | .genBlock => genBlockOn (scheduledUnit σ) s
  | .xorChunk len => xorChunkWith (sourceOf (scheduledUnit σ) s.skey s.snonce) len s
  | .close => execClose s

/-- R8, R113: one step of a core whose datapath follows the schedule `σ`. -/
def stepOn (σ : DatapathSchedule) (s : State) : Host.Outcome State Fault Refusal :=
  runTurnWith (execOn σ) (nextTurn s) (turnState s)

end Sys2Proof.Machine
end

