-- ==== Sys2Proof/Safety.lean ====
section
/-!
DEFINITION. What claims about safe runs are stated in: the invariants of spec/10_state.md R42, the
numbers of SSTATE and ERR (R25, R29), the order of the session counter (spec/41_sequencer.md R133), the
table of SSTATE transitions (spec/44_session.md R177), and the host duties the core does not check
(spec/70_reset_and_hazards.md R234).
-/
namespace Sys2Proof.Machine

/-- R42: the invariants (a) to (i) of every reachable state. -/
structure State.Inv (s : State) : Prop where
  sstate_code : s.sstate.code.toNat ≤ 4
  nextBlk_le : s.nextBlk.toNat ≤ 2 ^ 32
  noSession : s.sstate = .noSession →
    s.nextBlk = 0#33 ∧ s.skey = Vector.replicate 8 0#32 ∧ s.snonce = Vector.replicate 3 0#32
  created : s.sstate = .created → s.nextBlk = 0#33
  streaming : s.sstate = .streaming → 1 ≤ s.nextBlk.toNat ∧ s.nextBlk.toNat ≤ 2 ^ 32
  exhausted : s.sstate = .exhausted → s.nextBlk.toNat = 2 ^ 32
  closed : s.sstate = .closed → s.skey = Vector.replicate 8 0#32 ∧ s.snonce = Vector.replicate 3 0#32
  busy_done : s.busy = true → s.done = false
  err_code : s.err.code.toNat ≤ 6

/-! ### The numbers in STATUS -/

/-- R25: the table of SSTATE, by number. -/
def sstateNumbers : List (SessionState × Nat) :=
  [(.noSession, 0), (.created, 1), (.streaming, 2), (.exhausted, 3), (.closed, 4)]

/-- R29, R200: the table of ERR, by number. -/
def errNumbers : List (ErrCode × Nat) :=
  [(.ok, 0), (.invalidKeyLength, 1), (.invalidNonceLength, 2), (.counterOverflow, 3), (.illegalCommand, 4),
    (.illegalState, 5), (.invalidLength, 6)]

/-! ### What stays the same -/

/-- R20: every element of the core's record is the same. -/
structure SameCore (s t : State) : Prop where
  key : t.key = s.key
  nonce : t.nonce = s.nonce
  blkidx : t.blkidx = s.blkidx
  din : t.din = s.din
  dout : t.dout = s.dout
  skey : t.skey = s.skey
  snonce : t.snonce = s.snonce
  nextBlk : t.nextBlk = s.nextBlk
  sstate : t.sstate = s.sstate
  busy : t.busy = s.busy
  done : t.done = s.done
  wign : t.wign = s.wign
  err : t.err = s.err
  pend : t.pend = s.pend

/-- R36, R37: the session slot is the same. -/
structure SameSlot (s t : State) : Prop where
  skey : t.skey = s.skey
  snonce : t.snonce = s.snonce
  nextBlk : t.nextBlk = s.nextBlk
  sstate : t.sstate = s.sstate

/-- R86, R202: what no command writes: the staging registers, BLKIDX, DIN, PEND, WIGN, and the model's
own fields and the hidden datapath. -/
structure CommandFrame (s t : State) : Prop where
  key : t.key = s.key
  nonce : t.nonce = s.nonce
  blkidx : t.blkidx = s.blkidx
  din : t.din = s.din
  pend : t.pend = s.pend
  wign : t.wign = s.wign
  lanes : t.lanes = s.lanes
  turns : t.turns = s.turns
  readData : t.readData = s.readData
  tick : t.tick = s.tick

/-- R209: a command completed with code `c`. -/
structure Completed (c : ErrCode) (t : State) : Prop where
  err : t.err = c
  busy : t.busy = false
  done : t.done = true

/-- R230: 0 in every element of the core's record. -/
structure AllZero (t : State) : Prop where
  key : ∀ k : Fin 8, t.key[k] = 0#32
  nonce : ∀ k : Fin 3, t.nonce[k] = 0#32
  blkidx : t.blkidx = 0#64
  din : ∀ k : Fin 16, t.din[k] = 0#32
  dout : ∀ k : Fin 16, t.dout[k] = 0#32
  skey : ∀ k : Fin 8, t.skey[k] = 0#32
  snonce : ∀ k : Fin 3, t.snonce[k] = 0#32
  nextBlk : t.nextBlk = 0#33
  sstate : t.sstate = .noSession
  busy : t.busy = false
  done : t.done = false
  wign : t.wign = false
  err : t.err = .ok
  pend : t.pend = 0#32

/-! ### Events and transitions -/

/-- R55: an access the core's contract covers. -/
def Access.inContract : Access → Bool
  | .read w off => decide (w = .w32) && aligned off
  | .write w off _ => decide (w = .w32) && aligned off

/-- R55: an event that is no out-of-contract access. -/
def Turn.inContract : Turn → Bool
  | .host a => a.inContract
  | .core => true
  | .reset => true

/-- R177: the row of the transition table for a command: the next SSTATE and the completion code, by
SSTATE, BLKIDX and NEXT_BLK. -/
def transition (i : Instr) (st : SessionState) (blkidx nextBlk : Nat) : SessionState × ErrCode :=
  match i with
  | .nop => (st, .ok)
  | .genBlock => if blkidx < 2 ^ 32 then (st, .ok) else (st, .counterOverflow)
  | .createSession klen nlen =>
    if klen ≠ 32 then (st, .invalidKeyLength)
    else if nlen ≠ 12 then (st, .invalidNonceLength)
    else (.created, .ok)
  | .xorChunk len =>
    if len > 64 then (st, .invalidLength)
    else
      match st with
      | .noSession => (.noSession, .illegalState)
      | .created => if len = 0 then (.created, .ok) else (.streaming, .ok)
      | .streaming =>
        if len = 0 then (.streaming, .ok)
        else if nextBlk < 2 ^ 32 then (.streaming, .ok) else (.exhausted, .counterOverflow)
      | .exhausted => (.exhausted, .counterOverflow)
      | .closed => (.closed, .illegalState)
  | .close =>
    match st with
    | .noSession => (.noSession, .illegalState)
    | .created => (.closed, .ok)
    | .streaming => (.closed, .ok)
    | .exhausted => (.exhausted, .illegalState)
    | .closed => (.closed, .illegalState)

/-- R234 (a), I1: the pair a CREATE_SESSION would latch is none of those used before. A duty of the
host, a premise of claims, never checked by the core (R178). -/
def FreshPair (used : List (KeyWords × NonceWords)) (s : State) : Prop := (s.key, s.nonce) ∉ used

/-- R234 (b): the states in which messages start, one state a message: each is a new session, which has
consumed no block (R25), and no two under the same key have the same nonce. A duty of the host. -/
def OneSessionPerMessage (starts : List State) : Prop :=
  (∀ s ∈ starts, s.sstate = .created) ∧
    starts.Pairwise fun s t => s.skey = t.skey → s.snonce ≠ t.snonce

/-- R64: one agent's whole use of the core, for example from the writes of DIN through the read of DOUT. -/
structure HostUse where
  agent : Nat
  accesses : List Access
deriving DecidableEq, Repr

/-- R234 (d), R64: the accesses at the port, each with the agent that makes it, are serialized: whole uses,
one after another, each agent's in its own order. A duty of the host agents. -/
def SerializedHosts (uses : List HostUse) (trace : List (Nat × Access)) : Prop :=
  ∃ order : List HostUse,
    (∀ a, order.filter (fun u => decide (u.agent = a)) = uses.filter (fun u => decide (u.agent = a))) ∧
      trace = order.flatMap fun u => u.accesses.map fun x => (u.agent, x)

/-- R234 (c): decryption starts at the block index encryption started at, under the same key and nonce. -/
def SameStart (s t : State) : Prop :=
  s.skey = t.skey ∧ s.snonce = t.snonce ∧ s.nextBlk = t.nextBlk

/-- R234 (e), R157: the pieces the host sends one XOR_CHUNK each are the message's chunks. -/
def ChunkedAsMessage (P : List Byte) (pieces : List (List Byte)) : Prop := pieces = chunksOf P

end Sys2Proof.Machine
end

