-- ==== Sys2Proof/Certificates/Slice0/Obligations.lean ====
section
/-!
DEFINITION. The statements for the provers. Each docstring names the rule of spec/ it formalises; where
a clause is the model's own choice it names the log entry.
-/
open Sys2Proof Sys2Proof.Machine

/-! ### Encoding -/

/-- R89: "For every constructor c, decode(encode(c)) = c", on words and on bytes, with every operand at
every value its field admits. -/
def Obligations.DecodeOfEncodeIsTheCommand : Prop :=
  ∀ i : Instr, i.WellFormed →
    decodeWord (encode i) = .ok i ∧ decodeBytes (encodeBytes i) = .ok i

/-- R89: "For every word v with decode(v) ≠ Illegal, encode(decode(v)) = v". -/
def Obligations.EncodeOfDecodeIsTheWord : Prop :=
  ∀ (v : Word) (i : Instr), decodeWord v = .ok i → encode i = v ∧ i.WellFormed

/-- R87: a word decodes to a command exactly when it selects the opcode map's row of that command,
and no word selects two rows. -/
def Obligations.OpcodeMapRowsDecideTheCommand : Prop :=
  (∀ (v : Word) (r : OpcodeRow), r ∈ opcodeMap →
    (r.selects v = true ↔ ∃ i, decodeWord v = .ok i ∧ i.mnemonic = r.mnemonic)) ∧
  ∀ (v : Word) (r r' : OpcodeRow), r ∈ opcodeMap → r' ∈ opcodeMap →
    r.selects v = true → r'.selects v = true → r = r'

/-- R90: the worked encodings, in both directions. -/
def Obligations.WorkedEncodingsDecode : Prop :=
  ∀ p ∈ [(0x00000000#32, Instr.nop), (0x000C2001#32, .createSession 32 12),
      (0x000C1001#32, .createSession 16 12), (0x00082001#32, .createSession 32 8), (0x00000002#32, .genBlock),
      (0x00004003#32, .xorChunk 64), (0x00003203#32, .xorChunk 50), (0x00000103#32, .xorChunk 1),
      (0x00000003#32, .xorChunk 0), (0x00004103#32, .xorChunk 65), (0x00000004#32, .close)],
    decodeWord p.1 = .ok p.2 ∧ encode p.2 = p.1

/-- R203: a word with a reserved OPC or a must-be-zero bit set, pending at the core's turn, completes
with IllegalCommand, and nothing else of the core changes; no other word does so by decoding. That the
step starts from `turnState`, the event taken off the list, the hidden datapath redrawn and the draw
counter advanced, is the model's choice (log entries 1 and 4). -/
def Obligations.IllegalWordsCompleteWithIllegalCommand : Prop :=
  ∀ s : State, nextTurn s = .core → s.busy = true →
    (5 ≤ s.pend.toNat % 256 ∨
      ((s.pend.toNat % 256 = 0 ∨ s.pend.toNat % 256 = 2 ∨ s.pend.toNat % 256 = 4) ∧
        256 ≤ s.pend.toNat) ∨
      (s.pend.toNat % 256 = 1 ∧ 2 ^ 24 ≤ s.pend.toNat) ∨
      (s.pend.toNat % 256 = 3 ∧ 2 ^ 16 ≤ s.pend.toNat) ↔ ∃ e, decodeWord s.pend = .error e) ∧
    ((∃ e, decodeWord s.pend = .error e) →
      step s = .next { turnState s with err := .illegalCommand, busy := false, done := true })

/-! ### The step -/

/-- R209: the core's step is enabled exactly when busy = 1; it decodes PEND and runs the command, whose
result has BUSY = 0 and DONE = 1. Around the command the model takes the event off its list and lets
the hidden datapath drift (log entries 1 and 4). -/
def Obligations.StepRunsTheDecodedCommand : Prop :=
  (∀ s : State, SameCore s (turnState s) ∧ (turnState s).turns = s.turns.tail ∧
    (turnState s).readData = s.readData) ∧
  (∀ s : State, nextTurn s = .core → s.busy = false → step s = .next (turnState s)) ∧
  (∀ (s : State) (e : IllegalReason), nextTurn s = .core → s.busy = true →
    decodeWord s.pend = .error e →
    step s = .next { turnState s with err := .illegalCommand, busy := false, done := true }) ∧
  (∀ (s : State) (i : Instr), nextTurn s = .core → s.busy = true → decodeWord s.pend = .ok i →
    step s = exec i (turnState s)) ∧
  ∀ (s : State) (i : Instr), ∃ t, exec i s = .next t ∧ t.busy = false ∧ t.done = true

/-- The model's choice (log entry 7): the state with a command word placed for the host runs that
command in its very next step, from the state its issue leaves (R208). -/
def Obligations.PlacedWordRunsInTheNextStep : Prop :=
  ∀ (s : State) (w : Nat) (i : Instr), decodeTableWord 32 w = some i →
    step (s.withFetchWord 32 w) = exec i (drift (issue (BitVec.ofNat 32 w) s))

/-! ### The host port -/

/-- R52: what a host read returns at every aligned offset, and that it changes no state of the core.
Of DOUT and NEXT_BLK while BUSY = 1 it says nothing (R241). That the value stands in `readData` and that
the step takes the event off `turns` are the model's choices (log entries 9 and 1). -/
def Obligations.HostReadReturnsTheRegister : Prop :=
  ∀ (s : State) (off : Offset), nextTurn s = .host (.read .w32 off) → off.toNat % 4 = 0 →
    ∃ t v, step s = .next t ∧ t.readData = some v ∧ SameCore s t ∧ t.turns = s.turns.tail ∧
      (off = 0x00#8 → v = 0#32) ∧
      (off = 0x04#8 → v = 0#20 ++ s.err.code ++ 0#2 ++ BitVec.ofBool s.wign
        ++ BitVec.ofBool s.done ++ BitVec.ofBool s.busy ++ s.sstate.code) ∧
      (off = 0x04#8 → (∀ p ∈ sstateNumbers, s.sstate = p.1 → v.toNat % 8 = p.2) ∧
        ∀ p ∈ errNumbers, s.err = p.1 → v.toNat / 256 = p.2) ∧
      (off = 0x08#8 → v = s.blkidx.extractLsb' 0 32) ∧
      (off = 0x0C#8 → v = s.blkidx.extractLsb' 32 32) ∧
      (off = 0x10#8 → s.busy = false → v.toNat = s.nextBlk.toNat % 2 ^ 32) ∧
      (off = 0x14#8 → s.busy = false → v.toNat = s.nextBlk.toNat / 2 ^ 32) ∧
      (0x18 ≤ off.toNat → off.toNat ≤ 0x3C → v = 0#32) ∧
      (∀ k : Fin 3, off.toNat = 0x40 + 4 * k.val → v = s.nonce[k]) ∧
      (0x4C ≤ off.toNat → off.toNat ≤ 0x7C → v = 0#32) ∧
      (∀ k : Fin 16, off.toNat = 0x80 + 4 * k.val → v = s.din[k]) ∧
      (∀ k : Fin 16, off.toNat = 0xC0 + 4 * k.val → s.busy = false → v = s.dout[k])

/-- R53, R208: what a host write does at every aligned offset, while busy and while not, and that nothing
else of the core's record changes. That the step starts from `turnState`, the event taken off the list,
the hidden datapath redrawn and the draw counter advanced, is the model's choice (log entries 1 and 4). -/
def Obligations.HostWriteStoresTheRegister : Prop :=
  ∀ (s : State) (off : Offset) (v : Word), nextTurn s = .host (.write .w32 off v) →
    off.toNat % 4 = 0 →
    (s.busy = true → step s = .next { turnState s with wign := true }) ∧
    (s.busy = false →
      (off = 0x00#8 → step s =
        .next { turnState s with pend := v, busy := true, done := false, wign := false }) ∧
      (off = 0x08#8 → ∃ b : BitVec 64, step s = .next { turnState s with blkidx := b } ∧
        b.extractLsb' 0 32 = v ∧ b.extractLsb' 32 32 = s.blkidx.extractLsb' 32 32) ∧
      (off = 0x0C#8 → ∃ b : BitVec 64, step s = .next { turnState s with blkidx := b } ∧
        b.extractLsb' 32 32 = v ∧ b.extractLsb' 0 32 = s.blkidx.extractLsb' 0 32) ∧
      (∀ k : Fin 8, off.toNat = 0x20 + 4 * k.val →
        step s = .next { turnState s with key := s.key.set k v }) ∧
      (∀ k : Fin 3, off.toNat = 0x40 + 4 * k.val →
        step s = .next { turnState s with nonce := s.nonce.set k v }) ∧
      (∀ k : Fin 16, off.toNat = 0x80 + 4 * k.val →
        step s = .next { turnState s with din := s.din.set k v }) ∧
      (off = 0x04#8 ∨ (0x10 ≤ off.toNat ∧ off.toNat ≤ 0x1C) ∨ (0x4C ≤ off.toNat ∧ off.toNat ≤ 0x7C) ∨
        0xC0 ≤ off.toNat → step s = .next (turnState s)))

/-- R24, R25, R29, R200: the fields of STATUS, what SSTATE and ERR read by number for each state and each
code, their legal values and reset values, and that a write to it is ignored (with the WIGN of R28 while
BUSY = 1). -/
def Obligations.StatusHoldsItsFields : Prop :=
  (∀ s : State,
    (memRead s 0x04#8).extractLsb' 0 3 = s.sstate.code ∧
    (memRead s 0x04#8).extractLsb' 3 1 = BitVec.ofBool s.busy ∧
    (memRead s 0x04#8).extractLsb' 4 1 = BitVec.ofBool s.done ∧
    (memRead s 0x04#8).extractLsb' 5 1 = BitVec.ofBool s.wign ∧
    (memRead s 0x04#8).extractLsb' 6 2 = 0#2 ∧
    (memRead s 0x04#8).extractLsb' 8 4 = s.err.code ∧
    (memRead s 0x04#8).extractLsb' 12 20 = 0#20 ∧
    (memRead s 0x04#8).toNat % 8 ≤ 4 ∧ (memRead s 0x04#8).toNat / 256 ≤ 6 ∧
    (∀ p ∈ sstateNumbers, s.sstate = p.1 → (memRead s 0x04#8).toNat % 8 = p.2) ∧
    ∀ p ∈ errNumbers, s.err = p.1 → (memRead s 0x04#8).toNat / 256 = p.2) ∧
  memRead State.reset 0x04#8 = 0#32 ∧
  ∀ (s : State) (v : Word), (s.busy = false → memWrite s 0x04#8 v = s) ∧
    (s.busy = true → memWrite s 0x04#8 v = { s with wign := true })

/-- R55: a host access of another width, or at an offset with off[1:0] ≠ 0, is refused. The two names of
the refusal, and that a narrow misaligned access gets the width's, are the model's choice (log entry 8). -/
def Obligations.OutOfContractAccessIsRefused : Prop :=
  ∀ (s : State) (w : Width) (off : Offset) (v : Word),
    nextTurn s = .host (.read w off) ∨ nextTurn s = .host (.write w off v) →
    (w ≠ .w32 → step s = .refused .accessWidth) ∧
    (w = .w32 → off.toNat % 4 ≠ 0 → step s = .refused .misalignedAccess)

/-- R58: a write to any register but CMD, repeated, changes nothing further; nor does any write
repeated while BUSY = 1. -/
def Obligations.RepeatedWriteChangesNothingFurther : Prop :=
  ∀ (s : State) (off : Offset) (v : Word), off ≠ 0x00#8 ∨ s.busy = true →
    memWrite (memWrite s off v) off v = memWrite s off v

/-- R36, R41: no host access writes the session slot, DOUT or ERR, and a read writes nothing of the core. -/
def Obligations.HostAccessLeavesTheSessionAndResults : Prop :=
  ∀ (s t : State) (a : Access), nextTurn s = .host a → step s = .next t →
    SameSlot s t ∧ t.dout = s.dout ∧ t.err = s.err ∧
    (∀ off, a = .read .w32 off → SameCore s t)

/-! ### Reset and invariants -/

/-- R230, R231: reset, at any time, even with a command in progress, leaves 0 in every element of the
core's record; so does State.reset. A command abandoned so never completes: the core's next turn
changes nothing of its record. That reset is one event, which takes itself off `turns` and keeps the
model's own fields, and that the core's next turn leaves `turnState`, are the model's choices (log entries
1, 4 and 12). -/
def Obligations.ResetLeavesZeroEverywhere : Prop :=
  (AllZero State.reset ∧ statusWord State.reset = 0) ∧
  ∀ s : State, nextTurn s = .reset →
    ∃ t, step s = .next t ∧ AllZero t ∧ statusWord t = 0 ∧ t.turns = s.turns.tail ∧
      (nextTurn t = .core → step t = .next (turnState t) ∧ AllZero (turnState t))

/-- R42: the invariants hold at reset. -/
def Obligations.ResetMeetsTheInvariants : Prop := State.reset.Inv

/-- R42: from every state that meets the invariants (a) to (i), every step leads to one that does. -/
def Obligations.StepKeepsTheInvariants : Prop :=
  ∀ s t : State, s.Inv → step s = .next t → t.Inv

/-- R7, R39: after any step there is one set of working storage per permutation unit, and at least one. -/
def Obligations.EveryStepKeepsTheLaneCount : Prop :=
  (State.reset.lanes.length = Config.nLanes ∧ 1 ≤ Config.nLanes) ∧
  ∀ s t : State, step s = .next t → t.lanes.length = Config.nLanes

/-- R26 to R29: BUSY, DONE, WIGN and ERR change at the events the rules name and at no other. -/
def Obligations.FlagsChangeOnlyAtTheirEvents : Prop :=
  ∀ s t : State, step s = .next t →
    (s.busy = false → t.busy = true → ∃ v, nextTurn s = .host (.write .w32 0x00#8 v) ∧ t.pend = v ∧
      t.done = false ∧ t.wign = false) ∧
    (s.busy = true → t.busy = false → (nextTurn s = .core ∧ t.done = true) ∨ nextTurn s = .reset) ∧
    (s.done = false → t.done = true → nextTurn s = .core ∧ s.busy = true ∧ t.busy = false) ∧
    (s.done = true → t.done = false →
      (s.busy = false ∧ ∃ v, nextTurn s = .host (.write .w32 0x00#8 v)) ∨ nextTurn s = .reset) ∧
    (s.busy = true → (∃ off v, nextTurn s = .host (.write .w32 off v)) → t.wign = true) ∧
    (s.wign = false → t.wign = true →
      s.busy = true ∧ ∃ off v, nextTurn s = .host (.write .w32 off v)) ∧
    (s.wign = true → t.wign = false →
      (s.busy = false ∧ ∃ v, nextTurn s = .host (.write .w32 0x00#8 v)) ∨ nextTurn s = .reset) ∧
    (t.err ≠ s.err → (nextTurn s = .core ∧ s.busy = true) ∨ nextTurn s = .reset) ∧
    (t.pend ≠ s.pend →
      (s.busy = false ∧ nextTurn s = .host (.write .w32 0x00#8 t.pend)) ∨ nextTurn s = .reset)

/-- R61, R240: however many accesses the host makes while a command is pending, the core's record at
its completion is the one at its issue, but for WIGN. That each step takes one event off the list, so that
`rest` is left, is the model's choice (log entry 1). -/
def Obligations.OperandsStayAsIssuedUntilCompletion : Prop :=
  ∀ (as : List Access) (rest : List Turn) (s : State), (∀ a ∈ as, a.inContract = true) →
    s.busy = true → s.turns = as.map .host ++ rest →
    ∃ t : State, Host.Core.run core as.length s = .next t ∧ t.turns = rest ∧
      SameCore { s with wign := t.wign } t

/-- R248: every issued command completes after finitely many steps, unless reset intervenes: at the
latest when the listed events are used up (log entry 2). -/
def Obligations.EveryIssuedCommandCompletes : Prop :=
  ∀ s : State, s.busy = true → (∀ e ∈ s.turns, e ≠ .reset ∧ e.inContract = true) →
    ∃ (k : Nat) (t : State), k ≤ s.turns.length + 1 ∧ Host.Core.run core k s = .next t ∧
      t.busy = false ∧ t.done = true

/-! ### The commands -/

/-- R170: NOP does nothing but complete, in every state; a set must-be-zero bit makes it illegal. -/
def Obligations.NopOnlyCompletes : Prop :=
  (∀ s : State, ∃ t, exec .nop s = .next t ∧ Completed .ok t ∧ SameSlot s t ∧ t.dout = s.dout ∧
    CommandFrame s t) ∧
  encode .nop = 0x00000000#32 ∧
  ∀ v : Word, v.toNat % 256 = 0x00 → 256 ≤ v.toNat → decodeWord v = .error .mustBeZero

/-- R172: CREATE_SESSION 32, 12 starts a fresh session from the staging registers in every state; a
wrong length leaves the slot unchanged, the key length checked first. -/
def Obligations.CreateSessionStartsAFreshSession : Prop :=
  (∀ s : State, ∃ t, exec (.createSession 32 12) s = .next t ∧ Completed .ok t ∧ t.skey = s.key ∧
    t.snonce = s.nonce ∧ t.nextBlk = 0#33 ∧ (∀ k : Fin 16, t.dout[k] = 0#32) ∧ t.sstate = .created ∧
    CommandFrame s t) ∧
  (∀ (s : State) (klen nlen : Nat), klen ≠ 32 →
    ∃ t, exec (.createSession klen nlen) s = .next t ∧ Completed .invalidKeyLength t ∧
      SameSlot s t ∧ t.dout = s.dout ∧ CommandFrame s t) ∧
  (∀ (s : State) (nlen : Nat), nlen ≠ 12 →
    ∃ t, exec (.createSession 32 nlen) s = .next t ∧ Completed .invalidNonceLength t ∧
      SameSlot s t ∧ t.dout = s.dout ∧ CommandFrame s t) ∧
  (∀ klen nlen : Byte,
    encode (.createSession klen.toNat nlen.toNat) = 0x00#8 ++ nlen ++ klen ++ 0x01#8) ∧
  ∀ v : Word, v.toNat % 256 = 0x01 → 2 ^ 24 ≤ v.toNat → decodeWord v = .error .mustBeZero

/-- R140: GEN_BLOCK puts the block of (KEY, NONCE, BLKIDX) into DOUT in every session state; an index
of 2^32 or more completes with CounterOverflow and changes nothing else. -/
def Obligations.GenBlockComputesTheIndexedBlock : Prop :=
  (∀ s : State, s.blkidx.toNat < 2 ^ 32 →
    ∃ t, exec .genBlock s = .next t ∧ Completed .ok t ∧
      t.dout = chachaBlockWords s.key s.nonce (s.blkidx.extractLsb' 0 32) ∧
      SameSlot s t ∧ CommandFrame s t) ∧
  (∀ s : State, 2 ^ 32 ≤ s.blkidx.toNat →
    ∃ t, exec .genBlock s = .next t ∧ Completed .counterOverflow t ∧ t.dout = s.dout ∧
      SameSlot s t ∧ CommandFrame s t) ∧
  encode .genBlock = 0x00000002#32 ∧
  ∀ v : Word, v.toNat % 256 = 0x02 → 256 ≤ v.toNat → decodeWord v = .error .mustBeZero

/-- R150 to R154: XOR_CHUNK, every form: the chunk's bytes against the next keystream block and zeros
beyond it; the empty chunk; and its errors, in the order of its checks. -/
def Obligations.XorChunkMixesOneBlock : Prop :=
  (∀ (s : State) (len : Nat), 1 ≤ len → len ≤ 64 → s.sstate = .created ∨ s.sstate = .streaming →
    s.nextBlk.toNat < 2 ^ 32 →
    ∃ t, exec (.xorChunk len) s = .next t ∧ Completed .ok t ∧
      (∀ j : Fin 64, byteAt t.dout j =
        if j.val < len then
          byteAt s.din j ^^^ (chachaBlock s.skey s.snonce (s.nextBlk.extractLsb' 0 32))[j]
        else 0x00#8) ∧
      t.nextBlk.toNat = s.nextBlk.toNat + 1 ∧ t.sstate = .streaming ∧
      t.skey = s.skey ∧ t.snonce = s.snonce ∧ CommandFrame s t) ∧
  (∀ s : State, s.sstate = .created ∨ s.sstate = .streaming →
    ∃ t, exec (.xorChunk 0) s = .next t ∧ Completed .ok t ∧ SameSlot s t ∧ t.dout = s.dout ∧
      CommandFrame s t) ∧
  (∀ (s : State) (len : Nat), 64 < len →
    ∃ t, exec (.xorChunk len) s = .next t ∧ Completed .invalidLength t ∧ SameSlot s t ∧
      t.dout = s.dout ∧ CommandFrame s t) ∧
  (∀ (s : State) (len : Nat), len ≤ 64 → s.sstate = .noSession ∨ s.sstate = .closed →
    ∃ t, exec (.xorChunk len) s = .next t ∧ Completed .illegalState t ∧ SameSlot s t ∧
      t.dout = s.dout ∧ CommandFrame s t) ∧
  (∀ (s : State) (len : Nat), len ≤ 64 → s.sstate = .exhausted →
    ∃ t, exec (.xorChunk len) s = .next t ∧ Completed .counterOverflow t ∧ SameSlot s t ∧
      t.dout = s.dout ∧ CommandFrame s t) ∧
  (∀ (s : State) (len : Nat), 1 ≤ len → len ≤ 64 → s.sstate = .created ∨ s.sstate = .streaming →
    2 ^ 32 ≤ s.nextBlk.toNat →
    ∃ t, exec (.xorChunk len) s = .next t ∧ Completed .counterOverflow t ∧
      t.sstate = .exhausted ∧ t.skey = s.skey ∧ t.snonce = s.snonce ∧ t.nextBlk = s.nextBlk ∧
      t.dout = s.dout ∧ CommandFrame s t) ∧
  (∀ len : Byte, encode (.xorChunk len.toNat) = 0x0000#16 ++ len ++ 0x03#8) ∧
  ∀ v : Word, v.toNat % 256 = 0x03 → 2 ^ 16 ≤ v.toNat → decodeWord v = .error .mustBeZero

/-- R174: CLOSE ends a live session, clears SKEY, SNONCE and DOUT and keeps NEXT_BLK; in every other
state it completes with IllegalState. -/
def Obligations.CloseEndsALiveSession : Prop :=
  (∀ s : State, s.sstate = .created ∨ s.sstate = .streaming →
    ∃ t, exec .close s = .next t ∧ Completed .ok t ∧ (∀ k : Fin 8, t.skey[k] = 0#32) ∧
      (∀ k : Fin 3, t.snonce[k] = 0#32) ∧ (∀ k : Fin 16, t.dout[k] = 0#32) ∧ t.sstate = .closed ∧
      t.nextBlk = s.nextBlk ∧ CommandFrame s t) ∧
  (∀ s : State, s.sstate = .noSession ∨ s.sstate = .exhausted ∨ s.sstate = .closed →
    ∃ t, exec .close s = .next t ∧ Completed .illegalState t ∧ SameSlot s t ∧ t.dout = s.dout ∧
      CommandFrame s t) ∧
  encode .close = 0x00000004#32 ∧
  ∀ v : Word, v.toNat % 256 = 0x04 → 256 ≤ v.toNat → decodeWord v = .error .mustBeZero

/-- R202: a command that fails writes its code and nothing else, but for XOR_CHUNK's move to Exhausted;
no command ever writes the staging registers, DIN or BLKIDX. -/
def Obligations.ErrorsWriteOnlyTheirCode : Prop :=
  (∀ (i : Instr) (s : State), ∃ t, exec i s = .next t) ∧
  ∀ (i : Instr) (s t : State), exec i s = .next t →
    (t.err ≠ .ok →
      t = { s with err := t.err, busy := false, done := true } ∨
      ((∃ len, i = .xorChunk len) ∧ t.err = .counterOverflow ∧
        t = { s with sstate := .exhausted, err := .counterOverflow, busy := false, done := true })) ∧
    t.key = s.key ∧ t.nonce = s.nonce ∧ t.din = s.din ∧ t.blkidx = s.blkidx

/-- R86: after any command, every register-space offset but STATUS, NEXT_BLK and DOUT reads as before. -/
def Obligations.CommandsLeaveTheOtherRegisterSpace : Prop :=
  ∀ (i : Instr) (s t : State), exec i s = .next t →
    ∀ off : Offset, off ≠ 0x04#8 → off ≠ 0x10#8 → off ≠ 0x14#8 → off.toNat < 0xC0 →
      memRead t off = memRead s off

/-! ### The session state machine -/

/-- R177: the complete transition relation of SSTATE, with the completion codes and the NEXT_BLK values
of its table; from states that meet R42's invariants. -/
def Obligations.SessionTransitionsFollowTheTable : Prop :=
  ∀ s t : State, s.Inv → step s = .next t →
    (nextTurn s = .reset → t.sstate = .noSession) ∧
    (∀ a, nextTurn s = .host a → t.sstate = s.sstate) ∧
    (nextTurn s = .core → s.busy = false → t.sstate = s.sstate) ∧
    (∀ e, nextTurn s = .core → s.busy = true → decodeWord s.pend = .error e →
      t.sstate = s.sstate ∧ t.err = .illegalCommand) ∧
    (∀ i, nextTurn s = .core → s.busy = true → decodeWord s.pend = .ok i →
      (t.sstate, t.err) = transition i s.sstate s.blkidx.toNat s.nextBlk.toNat ∧
      (i = .createSession 32 12 → t.nextBlk = 0#33) ∧
      (∀ len, i = .xorChunk len → 1 ≤ len → len ≤ 64 →
        (s.sstate = .created → t.nextBlk = 1#33) ∧
        (s.sstate = .streaming → s.nextBlk.toNat < 2 ^ 32 →
          t.nextBlk.toNat = s.nextBlk.toNat + 1)))

/-- R175: Exhausted is terminal for its session: only a successful CREATE_SESSION or reset leaves it. -/
def Obligations.ExhaustedIsTerminal : Prop :=
  ∀ s t : State, s.sstate = .exhausted → step s = .next t →
    (t.sstate ≠ .exhausted → nextTurn s = .reset ∨
      (nextTurn s = .core ∧ s.busy = true ∧ decodeWord s.pend = .ok (.createSession 32 12) ∧
        t.sstate = .created)) ∧
    (nextTurn s = .core → s.busy = true →
      (∀ len, decodeWord s.pend = .ok (.xorChunk len) →
        t.err = .counterOverflow ∨ t.err = .invalidLength) ∧
      (decodeWord s.pend = .ok .close → t.err = .illegalState) ∧
      (decodeWord s.pend = .ok .nop → t.err = .ok) ∧
      (decodeWord s.pend = .ok .genBlock →
        t.err = if s.blkidx.toNat < 2 ^ 32 then .ok else .counterOverflow))

/-- R37, R133, R136: a successful XOR_CHUNK of 1 to 64 bytes adds exactly 1 to NEXT_BLK, without
wrapping; a successful CREATE_SESSION and reset set it to 0; nothing else changes it. -/
def Obligations.SessionCounterAdvancesByOne : Prop :=
  ∀ s t : State, step s = .next t →
    (t.nextBlk = s.nextBlk ∨ (nextTurn s = .reset ∧ t.nextBlk = 0#33) ∨
      (nextTurn s = .core ∧ s.busy = true ∧
        ((decodeWord s.pend = .ok (.createSession 32 12) ∧ t.nextBlk = 0#33 ∧ t.sstate = .created) ∨
         ∃ len, decodeWord s.pend = .ok (.xorChunk len) ∧ 1 ≤ len ∧ len ≤ 64 ∧ t.err = .ok ∧
           s.nextBlk.toNat < 2 ^ 32 ∧ t.nextBlk.toNat = s.nextBlk.toNat + 1))) ∧
    (nextTurn s = .core → s.busy = true → ∀ len, decodeWord s.pend = .ok (.xorChunk len) →
      1 ≤ len → t.err = .ok →
      s.nextBlk.toNat < 2 ^ 32 ∧ t.nextBlk.toNat = s.nextBlk.toNat + 1) ∧
    (nextTurn s = .core → s.busy = true → decodeWord s.pend = .ok (.createSession 32 12) →
      t.nextBlk = 0#33) ∧
    (nextTurn s = .reset → t.nextBlk = 0#33)

/-- R179: SKEY is written only by CREATE_SESSION, cleared by CLOSE and reset, read only by XOR_CHUNK,
and by no host access. Of the reads whose value R241 leaves free it says nothing. -/
def Obligations.SessionKeyIsOwnedByTheSession : Prop :=
  (∀ s t : State, step s = .next t → t.skey ≠ s.skey →
    (nextTurn s = .reset ∧ ∀ k : Fin 8, t.skey[k] = 0#32) ∨
    (nextTurn s = .core ∧ s.busy = true ∧
      ((decodeWord s.pend = .ok (.createSession 32 12) ∧ t.skey = s.key) ∨
       (decodeWord s.pend = .ok .close ∧ ∀ k : Fin 8, t.skey[k] = 0#32)))) ∧
  (∀ (s : State) (k : KeyWords) (i : Instr), (∀ len, i ≠ .xorChunk len) →
    ∃ t u, exec i s = .next t ∧ exec i { s with skey := k } = .next u ∧
      { u with skey := t.skey } = t) ∧
  ∀ (s : State) (k : KeyWords) (off : Offset),
    s.busy = false ∨ (off ≠ 0x10#8 ∧ off ≠ 0x14#8 ∧ off.toNat < 0xC0) →
    memRead { s with skey := k } off = memRead s off

/-- R32, R36: two states that differ only in the keys, the session nonce, PEND, the hidden datapath and
the model's own fields give the same value at every read whose value the spec fixes. -/
def Obligations.HostReadsRevealNoKey : Prop :=
  ∀ (s t : State) (off : Offset), t.nonce = s.nonce → t.blkidx = s.blkidx → t.din = s.din →
    t.dout = s.dout → t.nextBlk = s.nextBlk → t.sstate = s.sstate → t.busy = s.busy →
    t.done = s.done → t.wign = s.wign → t.err = s.err →
    s.busy = false ∨ (off ≠ 0x10#8 ∧ off ≠ 0x14#8 ∧ off.toNat < 0xC0) →
    memRead t off = memRead s off

/-! ### The keystream -/

/-- R141: the DOUT that GEN_BLOCK produces depends only on KEY, NONCE and BLKIDX, whatever the rest of
the two states. -/
def Obligations.GenBlockDependsOnlyOnItsOperands : Prop :=
  ∀ s t : State, t.key = s.key → t.nonce = s.nonce → t.blkidx = s.blkidx →
    s.blkidx.toNat < 2 ^ 32 →
    ∃ s' t', exec .genBlock s = .next s' ∧ exec .genBlock t = .next t' ∧ t'.dout = s'.dout ∧
      t'.err = s'.err

/-- R143: GEN_BLOCK at index i leaves bytes [64·i, 64·i + 64) of the keystream in DOUT, and they equal
the DOUT of the XOR_CHUNK 64 that consumes block i with DIN all zero. -/
def Obligations.GenBlockAgreesWithTheSession : Prop :=
  ∀ s t : State, t.skey = s.key → t.snonce = s.nonce → t.nextBlk.toNat = s.blkidx.toNat →
    s.blkidx.toNat < 2 ^ 32 → t.sstate = .created ∨ t.sstate = .streaming →
    (∀ k : Fin 16, t.din[k] = 0#32) →
    ∃ s' t', exec .genBlock s = .next s' ∧ exec (.xorChunk 64) t = .next t' ∧ t'.dout = s'.dout ∧
      ∀ j : Fin 64, byteAt s'.dout j =
        keystreamByte (chachaSource s.key s.nonce) (64 * s.blkidx.toNat + j.val)

/-- R130: valid_index, and the counter word of a valid index, which equals the index, in state word 12
of the block that a block source gives for it. -/
def Obligations.CounterWordIsTheIndex : Prop :=
  ∀ (i : Nat) (k : KeyWords) (n : NonceWords), (validIndex i = true ↔ i ≤ 2 ^ 32 - 1) ∧
    (validIndex i = true → chachaSource k n i = chachaBlock k n (counterWord i) ∧
      (counterWord i).toNat = i ∧ ((initState k (counterWord i) n)[12]).toNat = i)

/-! ### Messages -/

/-- R156: stream_xor of an N-byte message from block i, whatever the block source: with m = ⌈N/64⌉ it is
CounterOverflow when m > 0 and i + m - 1 > 2^32 - 1, and in every other case it answers; its answer is the
XOR with the keystream, byte by byte, and has the message's length. -/
def Obligations.StreamXorIsKeystreamXor : Prop :=
  ∀ (block : BlockSource) (i : Nat) (P : List Byte),
    (∀ m, P.length ≤ 64 * m → 64 * m < P.length + 64 →
      (0 < m ∧ i + m - 1 > 2 ^ 32 - 1 → streamXor block i P = .error .counterOverflow) ∧
      (¬(0 < m ∧ i + m - 1 > 2 ^ 32 - 1) → ∃ C, streamXor block i P = .ok C)) ∧
    ∀ C, streamXor block i P = .ok C →
      C.length = P.length ∧
      ∀ j, j < P.length → C[j]? = P[j]?.map (· ^^^ keystreamByte block (64 * i + j))

/-- R159: stream_xor is its own inverse. -/
def Obligations.StreamXorIsItsOwnInverse : Prop :=
  ∀ (block : BlockSource) (i : Nat) (P C : List Byte), streamXor block i P = .ok C →
    streamXor block i C = .ok P

/-- R163: two messages of equal length under the same keystream leak the XOR of their plaintexts. -/
def Obligations.KeystreamReuseLeaksThePlaintextXor : Prop :=
  ∀ (block : BlockSource) (i : Nat) (P₁ P₂ C₁ C₂ : List Byte), P₁.length = P₂.length →
    streamXor block i P₁ = .ok C₁ → streamXor block i P₂ = .ok C₂ →
    List.zipWith (· ^^^ ·) C₁ C₂ = List.zipWith (· ^^^ ·) P₁ P₂

/-- R157: the host's chunking procedure computes stream_xor from the session's key, nonce and next
block index and leaves NEXT_BLK at s + ⌈N/64⌉; where the counter limit is met, the chunks before it
have been delivered, the code is CounterOverflow and the session is Exhausted. Each cmdw is taken as its
write followed at once by the completion (log entry 20, DEDUCED). -/
def Obligations.ChunkLoopComputesStreamXor : Prop :=
  ∀ (s : State) (P : List Byte), s.busy = false → s.sstate = .created ∨ s.sstate = .streaming →
    s.nextBlk.toNat ≤ 2 ^ 32 →
    (s.nextBlk.toNat + chunkCount P.length ≤ 2 ^ 32 →
      ∃ r, sendMessage P s = some r ∧ r.err = .ok ∧
        streamXor (chachaSource s.skey s.snonce) s.nextBlk.toNat P = .ok r.out ∧
        r.core.nextBlk.toNat = s.nextBlk.toNat + chunkCount P.length) ∧
    (2 ^ 32 < s.nextBlk.toNat + chunkCount P.length →
      ∃ r, sendMessage P s = some r ∧ r.err = .counterOverflow ∧ r.core.sstate = .exhausted ∧
        streamXor (chachaSource s.skey s.snonce) s.nextBlk.toNat
          (P.take (64 * (2 ^ 32 - s.nextBlk.toNat))) = .ok r.out)

/-- R159: encrypt a message in a session created with (K, N), create a session again with the same
(K, N), decrypt the ciphertext: the result is the message. The calls and the chunk loop take each cmdw
as its write followed at once by the completion (log entry 20, DEDUCED). -/
def Obligations.DecryptionInAFreshSessionRestoresTheMessage : Prop :=
  ∀ (K : Vector Byte 32) (N : Vector Byte 12) (s : State) (P : List Byte), s.busy = false →
    chunkCount P.length ≤ 2 ^ 32 →
    ∃ t r u r', hostCreateSession K N s = .next t ∧ Completed .ok t ∧ sendMessage P t = some r ∧
      r.err = .ok ∧ r.out.length = P.length ∧ hostCreateSession K N r.core = .next u ∧ Completed .ok u ∧
      sendMessage r.out u = some r' ∧ r'.err = .ok ∧ r'.out = P

/-! ### The permutation -/

/-- R113: the reference schedule, one round per step from round index 0 to 20, computes
chacha_block_words, and is an allowed schedule. -/
def Obligations.ReferenceScheduleComputesTheBlock : Prop :=
  (∀ (k : KeyWords) (n : NonceWords) (ctr : Word),
    laneFinish (laneStep^[20] (laneStart k n ctr)) = chachaBlockWords k n ctr ∧
    (laneStep^[20] (laneStart k n ctr)).rnd.val = 20) ∧
  AllowedSchedule fun S => (laneStep^[20] ⟨S, S, 0⟩).x

/-- R104, R105: quarter-rounds on disjoint groupings may be computed in any order. -/
def Obligations.DisjointQuarterRoundsCommute : Prop :=
  ∀ (i j k l i' j' k' l' : Fin 16) (x : Block), [i, j, k, l, i', j', k', l'].Nodup →
    quarterRoundAt i j k l (quarterRoundAt i' j' k' l' x) =
      quarterRoundAt i' j' k' l' (quarterRoundAt i j k l x)

/-- R102, R108, R109: the layout of the initial state, the feed-forward and the serialization. -/
def Obligations.BlockIsFeedForwardSerialized : Prop :=
  ∀ (k : KeyWords) (n : NonceWords) (ctr : Word),
    (∀ w : Fin 4, (initState k ctr n)[w.val] = sigma[w]) ∧
    (∀ w : Fin 8, (initState k ctr n)[4 + w.val] = k[w]) ∧ (initState k ctr n)[12] = ctr ∧
    (∀ w : Fin 3, (initState k ctr n)[13 + w.val] = n[w]) ∧
    (∀ w : Fin 16, (chachaBlockWords k n ctr)[w] =
      (permute20 (initState k ctr n))[w] + (initState k ctr n)[w]) ∧
    ∀ j : Fin 64, (chachaBlock k n ctr)[j] =
      (chachaBlockWords k n ctr)[j.val / 4].extractLsb' (8 * (j.val % 4)) 8

/-- R101, R103, R106: SIGMA, the quarter-round's examples, and the double round's zero fixed point. -/
def Obligations.PermutationMeetsItsWorkedExamples : Prop :=
  sigma = #v[0x61707865#32, 0x3320646E#32, 0x79622D32#32, 0x6B206574#32] ∧
  quarterRound 0x11111111#32 0x01020304#32 0x9B8D6F43#32 0x01234567#32 =
    (0xEA2A92F4#32, 0xCB1CF8CE#32, 0x4581472E#32, 0x5881C4BB#32) ∧
  quarterRound 0xFFFFFFFF#32 0xFFFFFFFF#32 0xFFFFFFFF#32 0xFFFFFFFF#32 =
    (0xF0000FFD#32, 0x88790878#32, 0x0110FDEF#32, 0x010FFDF0#32) ∧
  doubleRound (Vector.replicate 16 0#32) = Vector.replicate 16 0#32

/-! ### The host's calls -/

/-- R98: ldkey, ldnonce, ldidx and lddin leave in their registers the little-endian words of their
bytes and change nothing else; rddout returns the 64 bytes of DOUT and changes nothing of the core. -/
def Obligations.HostLoadsFillTheirRegisters : Prop :=
  ∀ s : State, s.busy = false →
    (∀ K : Vector Byte 32, ∃ k, hostWrites (ldkeyWrites K) s = { s with key := k } ∧
      ∀ w : Fin 8, k[w] = le32 K[4 * w.val] K[4 * w.val + 1] K[4 * w.val + 2] K[4 * w.val + 3]) ∧
    (∀ N : Vector Byte 12, ∃ n, hostWrites (ldnonceWrites N) s = { s with nonce := n } ∧
      ∀ w : Fin 3, n[w] = le32 N[4 * w.val] N[4 * w.val + 1] N[4 * w.val + 2] N[4 * w.val + 3]) ∧
    (∀ i : BitVec 64, hostWrites (ldidxWrites i) s = { s with blkidx := i }) ∧
    (∀ B : List Byte, B.length ≤ 64 → ∃ d, hostWrites (lddinWrites B) s = { s with din := d } ∧
      ∀ j : Fin 64, byteAt d j = B.getD j 0#8) ∧
    (readDout s).1.length = 64 ∧ (∀ j : Fin 64, (readDout s).1[j.val]? = some (byteAt s.dout j)) ∧
    SameCore s (readDout s).2

/-- R180: the call create_session(key, nonce): a Created session of that key and nonce at block 0. Its
cmdw is taken as the write followed at once by the completion (log entry 20, DEDUCED). -/
def Obligations.CreateSessionCallMakesTheSession : Prop :=
  ∀ (K : Vector Byte 32) (N : Vector Byte 12) (s : State), s.busy = false →
    ∃ t, hostCreateSession K N s = .next t ∧ Completed .ok t ∧ t.sstate = .created ∧
      t.skey = keyOfBytes K ∧ t.snonce = nonceOfBytes N ∧ t.nextBlk = 0#33 ∧ t.blkidx = s.blkidx ∧
      t.din = s.din

/-- R180: the call generate_keystream_block(key, nonce, counter), with its rddout: the block's 64 bytes,
or CounterOverflow; the session slot stays as it was. Its cmdw is taken as the write followed at once by
the completion (log entry 20, DEDUCED). -/
def Obligations.GenerateBlockCallReturnsTheBlock : Prop :=
  ∀ (K : Vector Byte 32) (N : Vector Byte 12) (i : BitVec 64) (s : State), s.busy = false →
    ∃ t, hostGenerateBlock K N i s = .next t ∧ SameSlot s t ∧
      (i.toNat < 2 ^ 32 → t.err = .ok ∧
        (readDout t).1 = (chachaBlock (keyOfBytes K) (nonceOfBytes N) (counterWord i.toNat)).toList) ∧
      (2 ^ 32 ≤ i.toNat → t.err = .counterOverflow ∧ t.dout = s.dout)

/-! ### The datapath schedule -/

/-- R7 (c), R113: the machine takes any schedule as its argument, and under every allowed one its commands
and its steps are those of the machine that computes R108's function directly. -/
def Obligations.AllowedSchedulesGiveTheSameMachine : Prop :=
  ∀ σ : DatapathSchedule, AllowedSchedule σ.run →
    (∀ (i : Instr) (s : State), execOn σ i s = exec i s) ∧ ∀ s : State, stepOn σ s = step s

/-- R113: one round per step, one quarter-round per step, one double round per step and the unrolled
datapath are allowed schedules, of 20, 80, 10 steps and 1 step. -/
def Obligations.NamedSchedulesAreAllowed : Prop :=
  (AllowedSchedule roundSchedule.run ∧ roundSchedule.length = 20) ∧
  (AllowedSchedule quarterRoundSchedule.run ∧ quarterRoundSchedule.length = 80) ∧
  (AllowedSchedule doubleRoundSchedule.run ∧ doubleRoundSchedule.length = 10) ∧
  (AllowedSchedule unrolledSchedule.run ∧ unrolledSchedule.length = 1)

/-! ### The host's readout -/

/-- R98: sixteen host steps of a program that begins with `rddout -> O` make sixteen reads, whose words, in
increasing k, form the 64 bytes O; while BUSY = 0 they are the bytes of DOUT, and while BUSY = 1 nothing is
said of them (R241). The core's record stays as it was. That a program's variables are numbered, and the
sixteen words stand from `t` on, is the model's choice (log entry 14), and so is the form of a read's draw
(log entry 3), whose value nothing here rests on. -/
def Obligations.ReadoutIsFormedFromSixteenReads : Prop :=
  ∀ (t : Nat) (ls : List Line) (s : State), ls.all Line.wellFormed = true →
    ∃ y, System.run (List.replicate 16 .host) (System.start (.rddout t :: ls) s) = .next y ∧
      y.host.readout t = some (readDout s).1 ∧ (readDout s).1.length = 64 ∧ SameCore s y.core ∧
      y.host.status = .running ∧
      (s.busy = false → ∀ j : Fin 64, (readDout s).1[j.val]? = some (byteAt s.dout j))

/-! ### Fairness -/

/-- R248: beside any host program, under any schedule that is weakly fair to the core's completion step,
every issued command completes after finitely many turns, or a reset has abandoned it (log entry 2). -/
def Obligations.FairSchedulesCompleteEveryCommand : Prop :=
  ∀ (σ : Schedule) (y : System), WeaklyFair σ y → y.core.busy = true →
    ∃ n z, y.runUnder σ n = .next z ∧ z.core.busy = false ∧
      ((∀ m, m < n → σ m ≠ .reset) → z.core.done = true)

/-- R248, R96: under such a schedule, in which the host goes on polling, `wait` terminates: the host
passes it, and its variable holds a STATUS value with BUSY = 0; without a reset in between that is the STATUS
of the core, with DONE = 1 if a command was pending. That the label and the branch take turns of the
host's own is the model's choice (log entry 14), and so is the form of the two premises (log entry 2). -/
def Obligations.WaitTerminatesUnderFairness : Prop :=
  ∀ (σ : Schedule) (y : System) (line t : Nat), WeaklyFair σ y → HostGoesOn σ → AtWait y.host line t →
    ∃ n z v, y.runUnder σ n = .next z ∧ z.host.status = .running ∧ z.host.pos = y.host.pos + 3 ∧
      z.host.prog = y.host.prog ∧ z.core.busy = false ∧ z.host.vars.lookup t = some v ∧
      v.extractLsb' 3 1 = 0#1 ∧
      ((∀ m, m < n → σ m ≠ .reset) → v = statusWord z.core ∧ (y.core.busy = true → z.core.done = true))
end

