-- ==== Sys2Proof/Laws/Bytes.lean ====
section
/-!
SUPPORT. Bytes and words: the laws of `le32`, `wordByte`, `byteAt` and `packWords`
(spec/00_scope.md R11, spec/10_state.md R34 and R35).
-/
namespace Sys2Proof.Machine

/-- R11: the bits of `le32(b0, b1, b2, b3)`. -/
theorem getLsbD_le32 (b0 b1 b2 b3 : Byte) (i : Nat) :
    (le32 b0 b1 b2 b3).getLsbD i =
      if i < 8 then b0.getLsbD i else if i < 16 then b1.getLsbD (i - 8)
      else if i < 24 then b2.getLsbD (i - 16) else b3.getLsbD (i - 24) := by
  simp only [le32, BitVec.getLsbD_append]
  have e1 : i - 8 - 8 = i - 16 := by omega
  have e2 : i - 16 - 8 = i - 24 := by omega
  rw [e1, e2]
  repeat' split
  all_goals first | rfl | omega

/-- R54: the bits of byte `m` of a word. -/
theorem getLsbD_wordByte (w : Word) (m i : Nat) :
    (wordByte w m).getLsbD i = (decide (i < 8) && w.getLsbD (8 * m + i)) := by
  simp [wordByte, BitVec.getLsbD_extractLsb']

/-- R11: byte `m` of `le32(b0, b1, b2, b3)` is `bm`. -/
theorem wordByte_le32 (b0 b1 b2 b3 : Byte) :
    wordByte (le32 b0 b1 b2 b3) 0 = b0 ∧ wordByte (le32 b0 b1 b2 b3) 1 = b1 ∧
      wordByte (le32 b0 b1 b2 b3) 2 = b2 ∧ wordByte (le32 b0 b1 b2 b3) 3 = b3 := by
  refine ⟨?_, ?_, ?_, ?_⟩ <;>
  · refine BitVec.eq_of_getLsbD_eq fun i hi => ?_
    rw [getLsbD_wordByte, getLsbD_le32]
    simp only [hi, decide_true, Bool.true_and]
    repeat' split
    all_goals first | omega | (congr 1; omega)

/-- A word is `le32` of its four bytes. -/
theorem le32_wordByte (w : Word) :
    le32 (wordByte w 0) (wordByte w 1) (wordByte w 2) (wordByte w 3) = w := by
  refine BitVec.eq_of_getLsbD_eq fun i hi => ?_
  simp only [getLsbD_le32, getLsbD_wordByte]
  repeat' split
  all_goals
    rw [decide_eq_true (by omega), Bool.true_and]
    congr 1
    omega

/-- R11, R35: byte `j` of packed words is byte `j` of what was packed. -/
theorem byteAt_packWords {n j : Nat} (f : Nat → Byte) (h : j < 4 * n) :
    byteAt (packWords n f) j = f j := by
  have hj : j / 4 < n := by omega
  obtain ⟨h0, h1, h2, h3⟩ := wordByte_le32 (f (4 * (j / 4))) (f (4 * (j / 4) + 1))
    (f (4 * (j / 4) + 2)) (f (4 * (j / 4) + 3))
  simp only [byteAt, hj, dite_true, packWords, Vector.getElem_ofFn]
  have hm : j % 4 = 0 ∨ j % 4 = 1 ∨ j % 4 = 2 ∨ j % 4 = 3 := by omega
  rcases hm with e | e | e | e <;> rw [e]
  · rw [h0]; congr 1; omega
  · rw [h1]; congr 1; omega
  · rw [h2]; congr 1; omega
  · rw [h3]; congr 1; omega

/-- Words packed from the bytes of `v` are `v`. -/
theorem packWords_byteAt {n : Nat} (v : Vector Word n) : packWords n (byteAt v) = v := by
  ext1 i hi
  have hb : ∀ m, m < 4 → byteAt v (4 * i + m) = wordByte v[i] m := fun m hm => by
    have e : (4 * i + m) / 4 = i := by omega
    have e' : (4 * i + m) % 4 = m := by omega
    simp only [byteAt, e, e', hi, dite_true]
  have h0 := hb 0 (by omega)
  simp only [Nat.add_zero] at h0
  simp only [packWords, Vector.getElem_ofFn]
  rw [h0, hb 1 (by omega), hb 2 (by omega), hb 3 (by omega), le32_wordByte]

/-- Two register files with the same bytes are equal. -/
theorem eq_of_byteAt {n : Nat} {v w : Vector Word n} (h : ∀ j, j < 4 * n → byteAt v j = byteAt w j) :
    v = w := by
  rw [← packWords_byteAt v, ← packWords_byteAt w]
  ext1 i hi
  simp only [packWords, Vector.getElem_ofFn]
  rw [h _ (by omega), h _ (by omega), h _ (by omega), h _ (by omega)]

/-- R172: every byte of a cleared buffer is 0. -/
theorem byteAt_zeroBlock (j : Nat) : byteAt zeroBlock j = 0#8 := by
  unfold byteAt
  split
  · simp [zeroBlock, wordByte]
  · rfl

/-- R109: byte `j` of a serialized block. -/
theorem serialize_getElem (O : Block) {j : Nat} (h : j < 64) : (serialize O)[j] = byteAt O j := by
  simp [serialize]

/-- R151: byte `j` of a chunk's output, for any `j` below 64. -/
theorem byteAt_consumeBlock (ks : BlockBytes) (len : Nat) (s : State) {j : Nat} (h : j < 64) :
    byteAt (consumeBlock ks len s).dout j = xorLane len s.din ks j :=
  byteAt_packWords _ (by omega)

end Sys2Proof.Machine
end

