-- ==== Sys2Proof/Laws/Decode.lean ====
section
/-!
SUPPORT. The fields of an encoded command (spec/30_encoding.md R82 to R84) and what a decoded word's
fields are (R89).
-/
namespace Sys2Proof

/-- R81: OPC as a number. -/
theorem opcField_eq_iff (v : Word) (b : Byte) : opcField v = b ↔ v.toNat % 256 = b.toNat := by
  rw [← BitVec.toNat_inj]
  simp [opcField, BitVec.extractLsb'_toNat]

/-- R82: format N's must-be-zero bits are zero exactly when the word is below 2^8. -/
theorem mbzN_eq_zero (v : Word) : mbzN v = 0#24 ↔ v.toNat < 256 := by
  rw [← BitVec.toNat_inj]
  have := v.isLt
  simp [mbzN, BitVec.extractLsb'_toNat, Nat.shiftRight_eq_div_pow]
  omega

/-- R83: format S's must-be-zero bits are zero exactly when the word is below 2^24. -/
theorem mbzS_eq_zero (v : Word) : mbzS v = 0#8 ↔ v.toNat < 2 ^ 24 := by
  rw [← BitVec.toNat_inj]
  have := v.isLt
  simp [mbzS, BitVec.extractLsb'_toNat, Nat.shiftRight_eq_div_pow]
  omega

/-- R84: format X's must-be-zero bits are zero exactly when the word is below 2^16. -/
theorem mbzX_eq_zero (v : Word) : mbzX v = 0#16 ↔ v.toNat < 2 ^ 16 := by
  rw [← BitVec.toNat_inj]
  have := v.isLt
  simp [mbzX, BitVec.extractLsb'_toNat, Nat.shiftRight_eq_div_pow]
  omega

/-- R83: the fields of an encoded CREATE_SESSION. -/
theorem fields_encode_createSession (klen nlen : Nat) :
    opcField (encode (.createSession klen nlen)) = 0x01#8 ∧
    field15to8 (encode (.createSession klen nlen)) = BitVec.ofNat 8 klen ∧
    field23to16 (encode (.createSession klen nlen)) = BitVec.ofNat 8 nlen ∧
    mbzS (encode (.createSession klen nlen)) = 0#8 := by
  generalize hk : BitVec.ofNat 8 klen = k
  generalize hn : BitVec.ofNat 8 nlen = n
  have : ∀ k n : Byte, let v : Word := 0x00#8 ++ n ++ k ++ 0x01#8
      opcField v = 0x01#8 ∧ field15to8 v = k ∧ field23to16 v = n ∧ mbzS v = 0#8 := by
    intro k n v
    refine ⟨?_, ?_, ?_, ?_⟩ <;>
    · refine BitVec.eq_of_getLsbD_eq fun i hi => ?_
      simp only [v, opcField, field15to8, field23to16, mbzS, BitVec.getLsbD_extractLsb',
        BitVec.getLsbD_append, hi, decide_true, Bool.true_and]
      repeat' split
      all_goals first | omega | (congr 1; omega)
  simpa only [encode, hk, hn] using this k n

/-- R84: the fields of an encoded XOR_CHUNK. -/
theorem fields_encode_xorChunk (len : Nat) :
    opcField (encode (.xorChunk len)) = 0x03#8 ∧
    field15to8 (encode (.xorChunk len)) = BitVec.ofNat 8 len ∧
    mbzX (encode (.xorChunk len)) = 0#16 := by
  generalize hl : BitVec.ofNat 8 len = l
  have : ∀ l : Byte, let v : Word := 0x0000#16 ++ l ++ 0x03#8
      opcField v = 0x03#8 ∧ field15to8 v = l ∧ mbzX v = 0#16 := by
    intro l v
    refine ⟨?_, ?_, ?_⟩ <;>
    · refine BitVec.eq_of_getLsbD_eq fun i hi => ?_
      simp only [v, opcField, field15to8, mbzX, BitVec.getLsbD_extractLsb',
        BitVec.getLsbD_append, hi, decide_true, Bool.true_and]
      repeat' split
      all_goals first | omega | (congr 1; omega)
  simpa only [encode, hl] using this l

/-- R88 (b): `ifZero` accepts exactly when the must-be-zero bits are zero. -/
theorem ifZero_ok {n : Nat} {mbz : BitVec n} {i j : Instr} :
    ifZero mbz i = .ok j ↔ mbz = 0#n ∧ i = j := by
  unfold ifZero
  split
  · exact ⟨fun h => ⟨‹_›, by cases h; rfl⟩, fun h => by rw [h.2]⟩
  · exact ⟨fun h => (by cases h), fun h => absurd h.1 ‹_›⟩

/-- R88 (b): `ifZero` rejects with `mustBeZero` exactly when some must-be-zero bit is set. -/
theorem ifZero_error {n : Nat} {mbz : BitVec n} {i : Instr} {e : IllegalReason} :
    ifZero mbz i = .error e ↔ mbz ≠ 0#n ∧ e = .mustBeZero := by
  unfold ifZero
  split
  · exact ⟨fun h => (by cases h), fun h => absurd ‹_› h.1⟩
  · exact ⟨fun h => ⟨‹_›, by cases h; rfl⟩, fun h => by rw [h.2]⟩

/-- R89: what a decoded word's fields are. -/
theorem decodeWord_ok {v : Word} {i : Instr} (h : decodeWord v = .ok i) :
    (opcField v = 0x00#8 ∧ mbzN v = 0#24 ∧ i = .nop) ∨
    (opcField v = 0x01#8 ∧ mbzS v = 0#8 ∧
      i = .createSession (field15to8 v).toNat (field23to16 v).toNat) ∨
    (opcField v = 0x02#8 ∧ mbzN v = 0#24 ∧ i = .genBlock) ∨
    (opcField v = 0x03#8 ∧ mbzX v = 0#16 ∧ i = .xorChunk (field15to8 v).toNat) ∨
    (opcField v = 0x04#8 ∧ mbzN v = 0#24 ∧ i = .close) := by
  unfold decodeWord at h
  split at h
  · exact .inl ⟨‹_›, (ifZero_ok.1 h).1, (ifZero_ok.1 h).2.symm⟩
  split at h
  · exact .inr (.inl ⟨‹_›, (ifZero_ok.1 h).1, (ifZero_ok.1 h).2.symm⟩)
  split at h
  · exact .inr (.inr (.inl ⟨‹_›, (ifZero_ok.1 h).1, (ifZero_ok.1 h).2.symm⟩))
  split at h
  · exact .inr (.inr (.inr (.inl ⟨‹_›, (ifZero_ok.1 h).1, (ifZero_ok.1 h).2.symm⟩)))
  split at h
  · exact .inr (.inr (.inr (.inr ⟨‹_›, (ifZero_ok.1 h).1, (ifZero_ok.1 h).2.symm⟩)))
  · cases h

/-- R89: every command decoded from a word is well formed. -/
theorem decodeWord_wellFormed {v : Word} {i : Instr} (h : decodeWord v = .ok i) : i.WellFormed := by
  rcases decodeWord_ok h with ⟨_, _, rfl⟩ | ⟨_, _, rfl⟩ | ⟨_, _, rfl⟩ | ⟨_, _, rfl⟩ | ⟨_, _, rfl⟩ <;>
    simp only [Instr.WellFormed, Instr.wellFormed, Bool.and_eq_true, decide_eq_true_eq]
  · exact ⟨(field15to8 v).isLt, (field23to16 v).isLt⟩
  · exact (field15to8 v).isLt

end Sys2Proof
end

