-- ==== Sys2Proof/Laws/Permutation.lean ====
section
/-!
SUPPORT. The words and bytes of the permutation's functions, one by one (spec/40_permutation.md R103
to R109), and what a quarter-round leaves alone.
-/
namespace Sys2Proof.Machine

/-- R103, V-P3: a quarter-round on a state changes no word but its four. -/
theorem quarterRoundAt_other {i j k l m : Fin 16} (x : Block) (hi : m ≠ i) (hj : m ≠ j)
    (hk : m ≠ k) (hl : m ≠ l) : (quarterRoundAt i j k l x)[m] = x[m] := by
  simp only [quarterRoundAt, Fin.getElem_fin]
  rw [Vector.getElem_set_ne _ _ (fun e => hl (Fin.ext e.symm)),
    Vector.getElem_set_ne _ _ (fun e => hk (Fin.ext e.symm)),
    Vector.getElem_set_ne _ _ (fun e => hj (Fin.ext e.symm)),
    Vector.getElem_set_ne _ _ (fun e => hi (Fin.ext e.symm))]

/-- R107: permute20 is ten double rounds. -/
theorem permute20_eq (S : Block) : permute20 S = doubleRound^[10] S := by
  unfold permute20
  exact congrFun (congrArg _ (show Config.doubleRounds = 10 from rfl)) _

/-- R108: a block is the feed-forward of its initial state. -/
theorem chachaBlockWords_eq (k : KeyWords) (n : NonceWords) (ctr : Word) :
    chachaBlockWords k n ctr =
      feedForward (permute20 (initState k ctr n)) (initState k ctr n) := by
  rw [chachaBlockWords]

/-- R108: word `i` of the feed-forward. -/
theorem feedForward_getElem (X S : Block) {i : Nat} (h : i < 16) :
    (feedForward X S)[i] = X[i] + S[i] := by simp [feedForward]

/-- R109: byte `j` of a block. -/
theorem chachaBlock_getElem (k : KeyWords) (n : NonceWords) (ctr : Word) {j : Nat} (h : j < 64) :
    (chachaBlock k n ctr)[j] = byteAt (chachaBlockWords k n ctr) j := serialize_getElem _ h

/-- R109: the byte of a block by `getD`, as the XOR engine reads it. -/
theorem blockBytes_getD (b : BlockBytes) {j : Nat} (h : j < 64) : b.toList.getD j 0#8 = b[j] := by
  simp [List.getD_eq_getElem?_getD, h]

/-- R109, R140: packing a serialized block gives its words back, so `dout[i] = O[i]`. -/
theorem packWords_serialize (O : Block) :
    packWords 16 (fun j => (serialize O).toList.getD j 0#8) = O :=
  eq_of_byteAt fun j h => by
    rw [byteAt_packWords _ h, blockBytes_getD _ (by omega), serialize_getElem _ (by omega)]

/-- R135: the block at an index, by R109's function. -/
theorem chachaSource_apply (k : KeyWords) (n : NonceWords) (i : Nat) :
    chachaSource k n i = chachaBlock k n (counterWord i) := rfl

/-- R113: a schedule of no steps. -/
@[simp] theorem DatapathSchedule.run_nil (S : Block) : DatapathSchedule.run [] S = S := rfl

/-- R113: the first step of a schedule comes first. -/
@[simp] theorem DatapathSchedule.run_cons (f : Block → Block) (σ : DatapathSchedule) (S : Block) :
    DatapathSchedule.run (f :: σ) S = σ.run (f S) := rfl

/-- R113: one schedule after another. -/
theorem DatapathSchedule.run_append (σ τ : DatapathSchedule) (S : Block) :
    DatapathSchedule.run (σ ++ τ) S = τ.run (σ.run S) := by
  simp [DatapathSchedule.run]

/-- R113: the round index after a step. -/
theorem laneStep_rnd {a : Lane} (h : a.rnd.val < 20) : (laneStep a).rnd.val = a.rnd.val + 1 := by
  simp [laneStep, h]

/-- R113: a step never changes the initial state block. -/
theorem laneStep_s (a : Lane) : (laneStep a).s = a.s := by
  unfold laneStep; split <;> rfl

/-- R113: a step at an even round index is a column round. -/
theorem laneStep_x_even {a : Lane} (h : a.rnd.val < 20) (he : a.rnd.val % 2 = 0) :
    (laneStep a).x = columnRound a.x := by simp [laneStep, h, he]

/-- R113: a step at an odd round index is a diagonal round. -/
theorem laneStep_x_odd {a : Lane} (h : a.rnd.val < 20) (ho : a.rnd.val % 2 = 1) :
    (laneStep a).x = diagonalRound a.x := by simp [laneStep, h, ho]

end Sys2Proof.Machine
end

