-- ==== Sys2Proof/Laws/State.lean ====
section
/-!
SUPPORT. One lemma per field and named update of State, each true by rfl, so that no later proof
unfolds a record update; and the fields of State.reset.
-/
namespace Sys2Proof.Machine

/-! ### `complete` (R209) -/

@[simp] theorem complete_key (c : ErrCode) (s : State) : (complete c s).key = s.key := rfl
@[simp] theorem complete_nonce (c : ErrCode) (s : State) : (complete c s).nonce = s.nonce := rfl
@[simp] theorem complete_blkidx (c : ErrCode) (s : State) : (complete c s).blkidx = s.blkidx := rfl
@[simp] theorem complete_din (c : ErrCode) (s : State) : (complete c s).din = s.din := rfl
@[simp] theorem complete_dout (c : ErrCode) (s : State) : (complete c s).dout = s.dout := rfl
@[simp] theorem complete_skey (c : ErrCode) (s : State) : (complete c s).skey = s.skey := rfl
@[simp] theorem complete_snonce (c : ErrCode) (s : State) : (complete c s).snonce = s.snonce := rfl
@[simp] theorem complete_nextBlk (c : ErrCode) (s : State) : (complete c s).nextBlk = s.nextBlk := rfl
@[simp] theorem complete_sstate (c : ErrCode) (s : State) : (complete c s).sstate = s.sstate := rfl
@[simp] theorem complete_busy (c : ErrCode) (s : State) : (complete c s).busy = false := rfl
@[simp] theorem complete_done (c : ErrCode) (s : State) : (complete c s).done = true := rfl
@[simp] theorem complete_wign (c : ErrCode) (s : State) : (complete c s).wign = s.wign := rfl
@[simp] theorem complete_err (c : ErrCode) (s : State) : (complete c s).err = c := rfl
@[simp] theorem complete_pend (c : ErrCode) (s : State) : (complete c s).pend = s.pend := rfl
@[simp] theorem complete_lanes (c : ErrCode) (s : State) : (complete c s).lanes = s.lanes := rfl
@[simp] theorem complete_turns (c : ErrCode) (s : State) : (complete c s).turns = s.turns := rfl
@[simp] theorem complete_readData (c : ErrCode) (s : State) : (complete c s).readData = s.readData := rfl
@[simp] theorem complete_tick (c : ErrCode) (s : State) : (complete c s).tick = s.tick := rfl

/-! ### `issue` (R208) -/

@[simp] theorem issue_key (v : Word) (s : State) : (issue v s).key = s.key := rfl
@[simp] theorem issue_nonce (v : Word) (s : State) : (issue v s).nonce = s.nonce := rfl
@[simp] theorem issue_blkidx (v : Word) (s : State) : (issue v s).blkidx = s.blkidx := rfl
@[simp] theorem issue_din (v : Word) (s : State) : (issue v s).din = s.din := rfl
@[simp] theorem issue_dout (v : Word) (s : State) : (issue v s).dout = s.dout := rfl
@[simp] theorem issue_skey (v : Word) (s : State) : (issue v s).skey = s.skey := rfl
@[simp] theorem issue_snonce (v : Word) (s : State) : (issue v s).snonce = s.snonce := rfl
@[simp] theorem issue_nextBlk (v : Word) (s : State) : (issue v s).nextBlk = s.nextBlk := rfl
@[simp] theorem issue_sstate (v : Word) (s : State) : (issue v s).sstate = s.sstate := rfl
@[simp] theorem issue_busy (v : Word) (s : State) : (issue v s).busy = true := rfl
@[simp] theorem issue_done (v : Word) (s : State) : (issue v s).done = false := rfl
@[simp] theorem issue_wign (v : Word) (s : State) : (issue v s).wign = false := rfl
@[simp] theorem issue_err (v : Word) (s : State) : (issue v s).err = s.err := rfl
@[simp] theorem issue_pend (v : Word) (s : State) : (issue v s).pend = v := rfl
@[simp] theorem issue_lanes (v : Word) (s : State) : (issue v s).lanes = s.lanes := rfl
@[simp] theorem issue_turns (v : Word) (s : State) : (issue v s).turns = s.turns := rfl
@[simp] theorem issue_readData (v : Word) (s : State) : (issue v s).readData = s.readData := rfl
@[simp] theorem issue_tick (v : Word) (s : State) : (issue v s).tick = s.tick := rfl

/-! ### `startSession` (R172) -/

@[simp] theorem startSession_key (s : State) : (startSession s).key = s.key := rfl
@[simp] theorem startSession_nonce (s : State) : (startSession s).nonce = s.nonce := rfl
@[simp] theorem startSession_blkidx (s : State) : (startSession s).blkidx = s.blkidx := rfl
@[simp] theorem startSession_din (s : State) : (startSession s).din = s.din := rfl
@[simp] theorem startSession_dout (s : State) : (startSession s).dout = zeroBlock := rfl
@[simp] theorem startSession_skey (s : State) : (startSession s).skey = s.key := rfl
@[simp] theorem startSession_snonce (s : State) : (startSession s).snonce = s.nonce := rfl
@[simp] theorem startSession_nextBlk (s : State) : (startSession s).nextBlk = 0#33 := rfl
@[simp] theorem startSession_sstate (s : State) : (startSession s).sstate = .created := rfl
@[simp] theorem startSession_busy (s : State) : (startSession s).busy = s.busy := rfl
@[simp] theorem startSession_done (s : State) : (startSession s).done = s.done := rfl
@[simp] theorem startSession_wign (s : State) : (startSession s).wign = s.wign := rfl
@[simp] theorem startSession_err (s : State) : (startSession s).err = s.err := rfl
@[simp] theorem startSession_pend (s : State) : (startSession s).pend = s.pend := rfl
@[simp] theorem startSession_lanes (s : State) : (startSession s).lanes = s.lanes := rfl
@[simp] theorem startSession_turns (s : State) : (startSession s).turns = s.turns := rfl
@[simp] theorem startSession_readData (s : State) : (startSession s).readData = s.readData := rfl
@[simp] theorem startSession_tick (s : State) : (startSession s).tick = s.tick := rfl

/-! ### `endSession` (R174) -/

@[simp] theorem endSession_key (s : State) : (endSession s).key = s.key := rfl
@[simp] theorem endSession_nonce (s : State) : (endSession s).nonce = s.nonce := rfl
@[simp] theorem endSession_blkidx (s : State) : (endSession s).blkidx = s.blkidx := rfl
@[simp] theorem endSession_din (s : State) : (endSession s).din = s.din := rfl
@[simp] theorem endSession_dout (s : State) : (endSession s).dout = zeroBlock := rfl
@[simp] theorem endSession_skey (s : State) : (endSession s).skey = Vector.replicate 8 0#32 := rfl
@[simp] theorem endSession_snonce (s : State) : (endSession s).snonce = Vector.replicate 3 0#32 := rfl
@[simp] theorem endSession_nextBlk (s : State) : (endSession s).nextBlk = s.nextBlk := rfl
@[simp] theorem endSession_sstate (s : State) : (endSession s).sstate = .closed := rfl
@[simp] theorem endSession_busy (s : State) : (endSession s).busy = s.busy := rfl
@[simp] theorem endSession_done (s : State) : (endSession s).done = s.done := rfl
@[simp] theorem endSession_wign (s : State) : (endSession s).wign = s.wign := rfl
@[simp] theorem endSession_err (s : State) : (endSession s).err = s.err := rfl
@[simp] theorem endSession_pend (s : State) : (endSession s).pend = s.pend := rfl
@[simp] theorem endSession_lanes (s : State) : (endSession s).lanes = s.lanes := rfl
@[simp] theorem endSession_turns (s : State) : (endSession s).turns = s.turns := rfl
@[simp] theorem endSession_readData (s : State) : (endSession s).readData = s.readData := rfl
@[simp] theorem endSession_tick (s : State) : (endSession s).tick = s.tick := rfl

/-! ### `consumeBlock` (R150) -/

@[simp] theorem consumeBlock_key (ks : BlockBytes) (len : Nat) (s : State) : (consumeBlock ks len s).key = s.key := rfl
@[simp] theorem consumeBlock_nonce (ks : BlockBytes) (len : Nat) (s : State) : (consumeBlock ks len s).nonce = s.nonce := rfl
@[simp] theorem consumeBlock_blkidx (ks : BlockBytes) (len : Nat) (s : State) : (consumeBlock ks len s).blkidx = s.blkidx := rfl
@[simp] theorem consumeBlock_din (ks : BlockBytes) (len : Nat) (s : State) : (consumeBlock ks len s).din = s.din := rfl
@[simp] theorem consumeBlock_dout (ks : BlockBytes) (len : Nat) (s : State) : (consumeBlock ks len s).dout = packWords 16 (xorLane len s.din ks) := rfl
@[simp] theorem consumeBlock_skey (ks : BlockBytes) (len : Nat) (s : State) : (consumeBlock ks len s).skey = s.skey := rfl
@[simp] theorem consumeBlock_snonce (ks : BlockBytes) (len : Nat) (s : State) : (consumeBlock ks len s).snonce = s.snonce := rfl
@[simp] theorem consumeBlock_nextBlk (ks : BlockBytes) (len : Nat) (s : State) : (consumeBlock ks len s).nextBlk = s.nextBlk + 1#33 := rfl
@[simp] theorem consumeBlock_sstate (ks : BlockBytes) (len : Nat) (s : State) : (consumeBlock ks len s).sstate = .streaming := rfl
@[simp] theorem consumeBlock_busy (ks : BlockBytes) (len : Nat) (s : State) : (consumeBlock ks len s).busy = s.busy := rfl
@[simp] theorem consumeBlock_done (ks : BlockBytes) (len : Nat) (s : State) : (consumeBlock ks len s).done = s.done := rfl
@[simp] theorem consumeBlock_wign (ks : BlockBytes) (len : Nat) (s : State) : (consumeBlock ks len s).wign = s.wign := rfl
@[simp] theorem consumeBlock_err (ks : BlockBytes) (len : Nat) (s : State) : (consumeBlock ks len s).err = s.err := rfl
@[simp] theorem consumeBlock_pend (ks : BlockBytes) (len : Nat) (s : State) : (consumeBlock ks len s).pend = s.pend := rfl
@[simp] theorem consumeBlock_lanes (ks : BlockBytes) (len : Nat) (s : State) : (consumeBlock ks len s).lanes = s.lanes := rfl
@[simp] theorem consumeBlock_turns (ks : BlockBytes) (len : Nat) (s : State) : (consumeBlock ks len s).turns = s.turns := rfl
@[simp] theorem consumeBlock_readData (ks : BlockBytes) (len : Nat) (s : State) : (consumeBlock ks len s).readData = s.readData := rfl
@[simp] theorem consumeBlock_tick (ks : BlockBytes) (len : Nat) (s : State) : (consumeBlock ks len s).tick = s.tick := rfl

/-! ### `generateBlock` (R140) -/

@[simp] theorem generateBlock_key (s : State) : (generateBlock s).key = s.key := rfl
@[simp] theorem generateBlock_nonce (s : State) : (generateBlock s).nonce = s.nonce := rfl
@[simp] theorem generateBlock_blkidx (s : State) : (generateBlock s).blkidx = s.blkidx := rfl
@[simp] theorem generateBlock_din (s : State) : (generateBlock s).din = s.din := rfl
@[simp] theorem generateBlock_dout (s : State) : (generateBlock s).dout =
  chachaBlockWords s.key s.nonce (counterWord s.blkidx.toNat) := rfl
@[simp] theorem generateBlock_skey (s : State) : (generateBlock s).skey = s.skey := rfl
@[simp] theorem generateBlock_snonce (s : State) : (generateBlock s).snonce = s.snonce := rfl
@[simp] theorem generateBlock_nextBlk (s : State) : (generateBlock s).nextBlk = s.nextBlk := rfl
@[simp] theorem generateBlock_sstate (s : State) : (generateBlock s).sstate = s.sstate := rfl
@[simp] theorem generateBlock_busy (s : State) : (generateBlock s).busy = s.busy := rfl
@[simp] theorem generateBlock_done (s : State) : (generateBlock s).done = s.done := rfl
@[simp] theorem generateBlock_wign (s : State) : (generateBlock s).wign = s.wign := rfl
@[simp] theorem generateBlock_err (s : State) : (generateBlock s).err = s.err := rfl
@[simp] theorem generateBlock_pend (s : State) : (generateBlock s).pend = s.pend := rfl
@[simp] theorem generateBlock_lanes (s : State) : (generateBlock s).lanes = s.lanes := rfl
@[simp] theorem generateBlock_turns (s : State) : (generateBlock s).turns = s.turns := rfl
@[simp] theorem generateBlock_readData (s : State) : (generateBlock s).readData = s.readData := rfl
@[simp] theorem generateBlock_tick (s : State) : (generateBlock s).tick = s.tick := rfl

/-! ### `generateBlockOn` (R140) -/

@[simp] theorem generateBlockOn_key (u : BlockUnit) (s : State) : (generateBlockOn u s).key = s.key := rfl
@[simp] theorem generateBlockOn_nonce (u : BlockUnit) (s : State) : (generateBlockOn u s).nonce = s.nonce := rfl
@[simp] theorem generateBlockOn_blkidx (u : BlockUnit) (s : State) : (generateBlockOn u s).blkidx = s.blkidx := rfl
@[simp] theorem generateBlockOn_din (u : BlockUnit) (s : State) : (generateBlockOn u s).din = s.din := rfl
@[simp] theorem generateBlockOn_dout (u : BlockUnit) (s : State) : (generateBlockOn u s).dout = u s.key s.nonce (counterWord s.blkidx.toNat) := rfl
@[simp] theorem generateBlockOn_skey (u : BlockUnit) (s : State) : (generateBlockOn u s).skey = s.skey := rfl
@[simp] theorem generateBlockOn_snonce (u : BlockUnit) (s : State) : (generateBlockOn u s).snonce = s.snonce := rfl
@[simp] theorem generateBlockOn_nextBlk (u : BlockUnit) (s : State) : (generateBlockOn u s).nextBlk = s.nextBlk := rfl
@[simp] theorem generateBlockOn_sstate (u : BlockUnit) (s : State) : (generateBlockOn u s).sstate = s.sstate := rfl
@[simp] theorem generateBlockOn_busy (u : BlockUnit) (s : State) : (generateBlockOn u s).busy = s.busy := rfl
@[simp] theorem generateBlockOn_done (u : BlockUnit) (s : State) : (generateBlockOn u s).done = s.done := rfl
@[simp] theorem generateBlockOn_wign (u : BlockUnit) (s : State) : (generateBlockOn u s).wign = s.wign := rfl
@[simp] theorem generateBlockOn_err (u : BlockUnit) (s : State) : (generateBlockOn u s).err = s.err := rfl
@[simp] theorem generateBlockOn_pend (u : BlockUnit) (s : State) : (generateBlockOn u s).pend = s.pend := rfl
@[simp] theorem generateBlockOn_lanes (u : BlockUnit) (s : State) : (generateBlockOn u s).lanes = s.lanes := rfl
@[simp] theorem generateBlockOn_turns (u : BlockUnit) (s : State) : (generateBlockOn u s).turns = s.turns := rfl
@[simp] theorem generateBlockOn_readData (u : BlockUnit) (s : State) : (generateBlockOn u s).readData = s.readData := rfl
@[simp] theorem generateBlockOn_tick (u : BlockUnit) (s : State) : (generateBlockOn u s).tick = s.tick := rfl

/-! ### `resetCore` (R230) -/

@[simp] theorem resetCore_key (s : State) : (resetCore s).key = State.reset.key := rfl
@[simp] theorem resetCore_nonce (s : State) : (resetCore s).nonce = State.reset.nonce := rfl
@[simp] theorem resetCore_blkidx (s : State) : (resetCore s).blkidx = State.reset.blkidx := rfl
@[simp] theorem resetCore_din (s : State) : (resetCore s).din = State.reset.din := rfl
@[simp] theorem resetCore_dout (s : State) : (resetCore s).dout = State.reset.dout := rfl
@[simp] theorem resetCore_skey (s : State) : (resetCore s).skey = State.reset.skey := rfl
@[simp] theorem resetCore_snonce (s : State) : (resetCore s).snonce = State.reset.snonce := rfl
@[simp] theorem resetCore_nextBlk (s : State) : (resetCore s).nextBlk = State.reset.nextBlk := rfl
@[simp] theorem resetCore_sstate (s : State) : (resetCore s).sstate = State.reset.sstate := rfl
@[simp] theorem resetCore_busy (s : State) : (resetCore s).busy = State.reset.busy := rfl
@[simp] theorem resetCore_done (s : State) : (resetCore s).done = State.reset.done := rfl
@[simp] theorem resetCore_wign (s : State) : (resetCore s).wign = State.reset.wign := rfl
@[simp] theorem resetCore_err (s : State) : (resetCore s).err = State.reset.err := rfl
@[simp] theorem resetCore_pend (s : State) : (resetCore s).pend = State.reset.pend := rfl
@[simp] theorem resetCore_lanes (s : State) : (resetCore s).lanes = s.lanes := rfl
@[simp] theorem resetCore_turns (s : State) : (resetCore s).turns = s.turns := rfl
@[simp] theorem resetCore_readData (s : State) : (resetCore s).readData = s.readData := rfl
@[simp] theorem resetCore_tick (s : State) : (resetCore s).tick = s.tick := rfl

/-! ### `turnState` (R212) -/

@[simp] theorem turnState_key (s : State) : (turnState s).key = s.key := rfl
@[simp] theorem turnState_nonce (s : State) : (turnState s).nonce = s.nonce := rfl
@[simp] theorem turnState_blkidx (s : State) : (turnState s).blkidx = s.blkidx := rfl
@[simp] theorem turnState_din (s : State) : (turnState s).din = s.din := rfl
@[simp] theorem turnState_dout (s : State) : (turnState s).dout = s.dout := rfl
@[simp] theorem turnState_skey (s : State) : (turnState s).skey = s.skey := rfl
@[simp] theorem turnState_snonce (s : State) : (turnState s).snonce = s.snonce := rfl
@[simp] theorem turnState_nextBlk (s : State) : (turnState s).nextBlk = s.nextBlk := rfl
@[simp] theorem turnState_sstate (s : State) : (turnState s).sstate = s.sstate := rfl
@[simp] theorem turnState_busy (s : State) : (turnState s).busy = s.busy := rfl
@[simp] theorem turnState_done (s : State) : (turnState s).done = s.done := rfl
@[simp] theorem turnState_wign (s : State) : (turnState s).wign = s.wign := rfl
@[simp] theorem turnState_err (s : State) : (turnState s).err = s.err := rfl
@[simp] theorem turnState_pend (s : State) : (turnState s).pend = s.pend := rfl
@[simp] theorem turnState_lanes (s : State) : (turnState s).lanes = (List.range Config.nLanes).map (Config.laneContents s.tick) := rfl
@[simp] theorem turnState_turns (s : State) : (turnState s).turns = s.turns.tail := rfl
@[simp] theorem turnState_readData (s : State) : (turnState s).readData = s.readData := rfl
@[simp] theorem turnState_tick (s : State) : (turnState s).tick = s.tick + 1 := rfl

/-! ### `State.reset` (R230) -/

@[simp] theorem reset_key : State.reset.key = Vector.replicate 8 0#32 := rfl
@[simp] theorem reset_nonce : State.reset.nonce = Vector.replicate 3 0#32 := rfl
@[simp] theorem reset_blkidx : State.reset.blkidx = 0#64 := rfl
@[simp] theorem reset_din : State.reset.din = Vector.replicate 16 0#32 := rfl
@[simp] theorem reset_dout : State.reset.dout = Vector.replicate 16 0#32 := rfl
@[simp] theorem reset_skey : State.reset.skey = Vector.replicate 8 0#32 := rfl
@[simp] theorem reset_snonce : State.reset.snonce = Vector.replicate 3 0#32 := rfl
@[simp] theorem reset_nextBlk : State.reset.nextBlk = 0#33 := rfl
@[simp] theorem reset_sstate : State.reset.sstate = .noSession := rfl
@[simp] theorem reset_busy : State.reset.busy = false := rfl
@[simp] theorem reset_done : State.reset.done = false := rfl
@[simp] theorem reset_wign : State.reset.wign = false := rfl
@[simp] theorem reset_err : State.reset.err = .ok := rfl
@[simp] theorem reset_pend : State.reset.pend = 0#32 := rfl
@[simp] theorem reset_turns : State.reset.turns = [] := rfl
@[simp] theorem reset_readData : State.reset.readData = none := rfl

end Sys2Proof.Machine
end

