-- ==== Sys2Proof/Laws/Ops.lean ====
section
/-!
SUPPORT. What each shared operation and each command can do, said once: every command answers a next
state, which is a completion of one of six states (`exec_shape`), and a step is one of its events
(`step_cases`). Later proofs cite these and unfold no meaning.
-/
namespace Sys2Proof.Machine

/-! ### The commands, case by case -/

theorem exec_nop (s : State) : exec .nop s = .next (complete .ok s) := rfl

/-- R172: the three outcomes of CREATE_SESSION. -/
theorem exec_createSession_cases (klen nlen : Nat) (s : State) :
    (klen ≠ 32 ∧ exec (.createSession klen nlen) s = .next (complete .invalidKeyLength s)) ∨
    (klen = 32 ∧ nlen ≠ 12 ∧
      exec (.createSession klen nlen) s = .next (complete .invalidNonceLength s)) ∨
    (klen = 32 ∧ nlen = 12 ∧
      exec (.createSession klen nlen) s = .next (complete .ok (startSession s))) := by
  by_cases hk : klen = 32
  · by_cases hn : nlen = 12
    · exact .inr (.inr ⟨hk, hn, by simp [exec, execCreateSession, Config.keyBytes, Config.nonceBytes, hk, hn]⟩)
    · exact .inr (.inl ⟨hk, hn, by
        simp [exec, execCreateSession, Config.keyBytes, Config.nonceBytes, hk, hn, raiseError]⟩)
  · exact .inl ⟨hk, by simp [exec, execCreateSession, Config.keyBytes, hk, raiseError]⟩

/-- R130: `valid_index`. -/
theorem validIndex_iff (i : Nat) : validIndex i = true ↔ i < 2 ^ 32 := by
  simp [validIndex]; omega

/-- R140: the two outcomes of GEN_BLOCK, on any permutation unit. -/
theorem genBlockOn_cases (u : BlockUnit) (s : State) :
    (s.blkidx.toNat < 2 ^ 32 ∧ genBlockOn u s = .next (complete .ok (generateBlockOn u s))) ∨
    (2 ^ 32 ≤ s.blkidx.toNat ∧ genBlockOn u s = .next (complete .counterOverflow s)) := by
  by_cases h : s.blkidx.toNat < 2 ^ 32
  · exact .inl ⟨h, by simp [genBlockOn, (validIndex_iff _).2 h]⟩
  · have h' : validIndex s.blkidx.toNat = false := by
      rw [Bool.eq_false_iff]; exact fun hv => h ((validIndex_iff _).1 hv)
    exact .inr ⟨by omega, by simp [genBlockOn, h', raiseError]⟩

/-- R140: the two outcomes of GEN_BLOCK. -/
theorem exec_genBlock_cases (s : State) :
    (s.blkidx.toNat < 2 ^ 32 ∧ exec .genBlock s = .next (complete .ok (generateBlock s))) ∨
    (2 ^ 32 ≤ s.blkidx.toNat ∧ exec .genBlock s = .next (complete .counterOverflow s)) :=
  genBlockOn_cases chachaBlockWords s

/-- R174: the two outcomes of CLOSE. -/
theorem exec_close_cases (s : State) :
    (s.sstate.live = true ∧ exec .close s = .next (complete .ok (endSession s))) ∨
    (s.sstate.live = false ∧ exec .close s = .next (complete .illegalState s)) := by
  cases h : s.sstate.live <;> simp [exec, execClose, h, raiseError]

/-- R150: the six outcomes of XOR_CHUNK, in the order of its checks. -/
theorem exec_xorChunk_cases (len : Nat) (s : State) :
    (64 < len ∧ exec (.xorChunk len) s = .next (complete .invalidLength s)) ∨
    (len ≤ 64 ∧ (s.sstate = .noSession ∨ s.sstate = .closed) ∧
      exec (.xorChunk len) s = .next (complete .illegalState s)) ∨
    (len ≤ 64 ∧ s.sstate = .exhausted ∧
      exec (.xorChunk len) s = .next (complete .counterOverflow s)) ∨
    (len = 0 ∧ s.sstate.live = true ∧ exec (.xorChunk len) s = .next (complete .ok s)) ∨
    (1 ≤ len ∧ len ≤ 64 ∧ s.sstate.live = true ∧ s.nextBlk.toNat < 2 ^ 32 ∧
      exec (.xorChunk len) s = .next (complete .ok
        (consumeBlock (chachaSource s.skey s.snonce s.nextBlk.toNat) len s))) ∨
    (1 ≤ len ∧ len ≤ 64 ∧ s.sstate.live = true ∧ 2 ^ 32 ≤ s.nextBlk.toNat ∧
      exec (.xorChunk len) s = .next (complete .counterOverflow { s with sstate := .exhausted })) := by
  have hlive : ∀ (hl : len ≤ 64) (_ : s.sstate.live = true),
      exec (.xorChunk len) s = xorChunkLive (chachaSource s.skey s.snonce) len s := by
    intro hl hs
    have : ¬ len > Config.blockBytes := by simp [Config.blockBytes]; omega
    cases e : s.sstate <;> simp_all [SessionState.live, exec, execXorChunk, xorChunkWith]
  by_cases hl : len ≤ 64
  · have hb : ¬ 64 < len := by omega
    cases e : s.sstate.live with
    | true =>
      rw [hlive hl e]
      by_cases h0 : len = 0
      · exact .inr (.inr (.inr (.inl ⟨h0, rfl, by simp [xorChunkLive, h0]⟩)))
      · by_cases hi : s.nextBlk.toNat < 2 ^ 32
        · exact .inr (.inr (.inr (.inr (.inl ⟨by omega, hl, rfl, hi, by
            simp [xorChunkLive, h0, (validIndex_iff _).2 hi]⟩))))
        · have h' : validIndex s.nextBlk.toNat = false := by
            rw [Bool.eq_false_iff]; exact fun hv => hi ((validIndex_iff _).1 hv)
          exact .inr (.inr (.inr (.inr (.inr ⟨by omega, hl, rfl, by omega, by
            simp [xorChunkLive, h0, h', raiseError]⟩))))
    | false =>
      cases e' : s.sstate <;>
        simp_all [SessionState.live, exec, execXorChunk, xorChunkWith, raiseError, Config.blockBytes]
  · exact .inl ⟨by omega, by
      simp [exec, execXorChunk, xorChunkWith, raiseError, Config.blockBytes, show len > 64 by omega]⟩

/-- R202, R209: every command answers a next state, and what it writes is one of these six. -/
theorem exec_shape (i : Instr) (s : State) : ∃ c u, exec i s = .next (complete c u) ∧
    (u = s ∨
     (i = .createSession 32 12 ∧ c = .ok ∧ u = startSession s) ∨
     (i = .close ∧ c = .ok ∧ s.sstate.live = true ∧ u = endSession s) ∨
     (i = .genBlock ∧ c = .ok ∧ s.blkidx.toNat < 2 ^ 32 ∧
       u = generateBlock s) ∨
     (∃ len, i = .xorChunk len ∧ c = .ok ∧ 1 ≤ len ∧ len ≤ 64 ∧ s.sstate.live = true ∧
       s.nextBlk.toNat < 2 ^ 32 ∧
       u = consumeBlock (chachaSource s.skey s.snonce s.nextBlk.toNat) len s) ∨
     (∃ len, i = .xorChunk len ∧ c = .counterOverflow ∧ 1 ≤ len ∧ len ≤ 64 ∧
       s.sstate.live = true ∧ 2 ^ 32 ≤ s.nextBlk.toNat ∧ u = { s with sstate := .exhausted })) := by
  cases i with
  | nop => exact ⟨_, _, exec_nop s, .inl rfl⟩
  | createSession klen nlen =>
    rcases exec_createSession_cases klen nlen s with ⟨_, e⟩ | ⟨_, _, e⟩ | ⟨rfl, rfl, e⟩
    · exact ⟨_, _, e, .inl rfl⟩
    · exact ⟨_, _, e, .inl rfl⟩
    · exact ⟨_, _, e, .inr (.inl ⟨rfl, rfl, rfl⟩)⟩
  | genBlock =>
    rcases exec_genBlock_cases s with ⟨h, e⟩ | ⟨_, e⟩
    · exact ⟨_, _, e, .inr (.inr (.inr (.inl ⟨rfl, rfl, h, rfl⟩)))⟩
    · exact ⟨_, _, e, .inl rfl⟩
  | xorChunk len =>
    rcases exec_xorChunk_cases len s with ⟨_, e⟩ | ⟨_, _, e⟩ | ⟨_, _, e⟩ | ⟨_, _, e⟩ |
      ⟨h1, h2, h3, h4, e⟩ | ⟨h1, h2, h3, h4, e⟩
    · exact ⟨_, _, e, .inl rfl⟩
    · exact ⟨_, _, e, .inl rfl⟩
    · exact ⟨_, _, e, .inl rfl⟩
    · exact ⟨_, _, e, .inl rfl⟩
    · exact ⟨_, _, e, .inr (.inr (.inr (.inr (.inl ⟨len, rfl, rfl, h1, h2, h3, h4, rfl⟩))))⟩
    · exact ⟨_, _, e, .inr (.inr (.inr (.inr (.inr ⟨len, rfl, rfl, h1, h2, h3, h4, rfl⟩))))⟩
  | close =>
    rcases exec_close_cases s with ⟨h, e⟩ | ⟨_, e⟩
    · exact ⟨_, _, e, .inr (.inr (.inl ⟨rfl, rfl, h, rfl⟩))⟩
    · exact ⟨_, _, e, .inl rfl⟩

/-! ### Host accesses -/

/-- R53, R240: what a write can do. -/
theorem memWrite_cases (s : State) (off : Offset) (v : Word) :
    (s.busy = true ∧ memWrite s off v = { s with wign := true }) ∨
    (s.busy = false ∧ ∃ r, regAt off = some r ∧ memWrite s off v = writeReg s v r) ∨
    (s.busy = false ∧ regAt off = none ∧ memWrite s off v = s) := by
  cases hb : s.busy with
  | true => exact .inl ⟨rfl, by simp [memWrite, hb]⟩
  | false =>
    cases hr : regAt off with
    | some r => exact .inr (.inl ⟨rfl, r, rfl, by simp [memWrite, hb, hr]⟩)
    | none => exact .inr (.inr ⟨rfl, rfl, by simp [memWrite, hb, hr]⟩)

/-- R55: an access that goes on is an aligned one of 32 bits. -/
theorem checkAccess_next {w : Width} {off : Offset} {t u : State}
    (h : checkAccess w off t = .next u) : w = .w32 ∧ aligned off = true ∧ u = t := by
  cases w <;> simp only [checkAccess] at h
  case w32 =>
    split at h
    · rename_i ha
      cases h
      exact ⟨rfl, ha, rfl⟩
    · cases h
  all_goals cases h

/-- R52, R53: what a host access that goes on does. -/
theorem hostTurn_cases {a : Access} {s t : State} (h : hostTurn a s = .next t) :
    (∃ off, a = .read .w32 off ∧ aligned off = true ∧ t = { s with readData := some (memRead s off) }) ∨
    (∃ off v, a = .write .w32 off v ∧ aligned off = true ∧ t = memWrite s off v) := by
  cases a with
  | read w off =>
    obtain ⟨rfl, ha, rfl⟩ := checkAccess_next h
    exact .inl ⟨off, rfl, ha, rfl⟩
  | write w off v =>
    obtain ⟨rfl, ha, rfl⟩ := checkAccess_next h
    exact .inr ⟨off, v, rfl, ha, rfl⟩

/-! ### The step -/

/-- R212: a step that goes on is reset, a host access, an idle turn, the completion of an illegal
word, or the completion of a command. -/
theorem step_cases {s t : State} (h : step s = .next t) :
    (nextTurn s = .reset ∧ t = resetCore (turnState s)) ∨
    (∃ a, nextTurn s = .host a ∧ hostTurn a (turnState s) = .next t) ∨
    (nextTurn s = .core ∧ s.busy = false ∧ t = turnState s) ∨
    (nextTurn s = .core ∧ s.busy = true ∧ (∃ e, decodeWord s.pend = .error e) ∧
      t = complete .illegalCommand (turnState s)) ∨
    (nextTurn s = .core ∧ s.busy = true ∧ ∃ i, decodeWord s.pend = .ok i ∧
      exec i (turnState s) = .next t) := by
  unfold step at h
  cases hn : nextTurn s with
  | reset =>
    rw [hn] at h
    cases h
    exact .inl ⟨rfl, rfl⟩
  | host a =>
    rw [hn] at h
    exact .inr (.inl ⟨a, rfl, h⟩)
  | core =>
    rw [hn] at h
    simp only [runTurn, runTurnWith, coreTurnWith, turnState_busy] at h
    cases hb : s.busy with
    | false =>
      simp only [hb, Bool.false_eq_true, if_false] at h
      cases h
      exact .inr (.inr (.inl ⟨rfl, rfl, rfl⟩))
    | true =>
      simp only [hb, if_true, completeStepWith, turnState_pend] at h
      cases hd : decodeWord s.pend with
      | error e =>
        rw [hd] at h
        cases h
        exact .inr (.inr (.inr (.inl ⟨rfl, rfl, ⟨e, rfl⟩, rfl⟩)))
      | ok i =>
        rw [hd] at h
        exact .inr (.inr (.inr (.inr ⟨rfl, rfl, i, rfl, h⟩)))

/-- R209: at the core's turn with a decoded command pending, the step is that command's. -/
theorem step_core {s : State} {i : Instr} (hn : nextTurn s = .core) (hb : s.busy = true)
    (hd : decodeWord s.pend = .ok i) : step s = exec i (turnState s) := by
  simp [step, hn, runTurn, runTurnWith, coreTurnWith, hb, completeStepWith, hd]

end Sys2Proof.Machine
end

