-- ==== Sys2Proof/Laws/Registers.lean ====
section
/-!
SUPPORT. The register map (spec/10_state.md R22): every register is found at its offset and nowhere
else, and what each host write of a register does while BUSY = 0 (spec/20_memory.md R53).
-/
namespace Sys2Proof.Machine

/-- R22: the register at a register's offset is that register. -/
theorem regAt_offset (r : RegName) : regAt r.offset = some r := by
  cases r with
  | key k => revert k; decide
  | nonce k => revert k; decide
  | din k => revert k; decide
  | dout k => revert k; decide
  | _ => decide

/-- R22: every register's offset is aligned. -/
theorem aligned_offset (r : RegName) : aligned r.offset = true := by
  cases r with
  | key k => revert k; decide
  | nonce k => revert k; decide
  | din k => revert k; decide
  | dout k => revert k; decide
  | _ => decide

/-- R22: a register stands at its own offset only. -/
theorem offset_of_regAt {off : Offset} {r : RegName} (h : regAt off = some r) : off = r.offset := by
  have : ∀ off : Offset, ∀ r, regAt off = some r → off = r.offset := by
    intro off
    have h : (regAt off).all (fun r => decide (off = r.offset)) = true := by
      revert off; decide +kernel
    intro r hr
    simpa [hr] using h
  exact this off r h

/-- R53: a write of register `r` at its offset while BUSY = 0. -/
theorem memWrite_offset {s : State} (hb : s.busy = false) (r : RegName) (v : Word) :
    memWrite s r.offset v = writeReg s v r := by simp [memWrite, hb, regAt_offset]

/-- R52: a read of register `r` at its offset. -/
theorem memRead_offset (s : State) (r : RegName) : memRead s r.offset = readReg s r := by
  simp [memRead, regAt_offset]

/-- R53, R58: a write of a register other than CMD leaves BUSY alone. -/
theorem writeReg_busy {s : State} {r : RegName} (h : r ≠ .cmd) (v : Word) :
    (writeReg s v r).busy = s.busy := by
  cases r <;> first | rfl | exact absurd rfl h

end Sys2Proof.Machine
end

