-- ==== Sys2Proof/Laws/Host.lean ====
section
/-!
SUPPORT. The host's operations, one lemma each (spec/30_encoding.md R97 and R98, spec/43_xor_engine.md
R157): what a load leaves in its register file, what reads return and leave, what a command call runs, one turn
of the chunk loop; and one step of a run.
-/
namespace Sys2Proof.Machine

/-! ### Runs -/

/-- A run of `k + 1` steps whose first step goes on. -/
theorem run_next {s t : State} (k : Nat) (h : step s = .next t) :
    Host.Core.run core (k + 1) s = Host.Core.run core k t := by
  have unfold_run : ∀ (M : Host.Core) (k : Nat) (s t : M.State), M.step s = .next t →
      M.run (k + 1) s = M.run k t := fun M k s t h => by
    show (match M.step s with
      | .next s' => M.run k s'
      | .fault r => .fault r
      | .refused r => .refused r) = _
    rw [h]
  exact unfold_run core k s t h

/-! ### Loads -/

/-- Setting every index of a register file from `w` leaves `w`. -/
theorem foldl_set_eq {n : Nat} (v w : Vector Word n) :
    (List.finRange n).foldl (fun u (k : Fin n) => u.set k (w[k] : Word)) v = w := by
  have at_index : ∀ (ks : List (Fin n)) (v : Vector Word n) (m : Fin n),
      (ks.foldl (fun u (k : Fin n) => u.set k (w[k] : Word)) v)[m] = if m ∈ ks then w[m] else v[m] := by
    intro ks
    induction ks with
    | nil => simp
    | cons a ks ih =>
      intro v m
      rw [List.foldl_cons, ih]
      by_cases h : m ∈ ks
      · simp [h]
      · by_cases e : m = a
        · simp [e]
        · have : ¬ a.val = m.val := fun hh => e (Fin.ext hh).symm
          simp [h, e, this]
  ext1 i hi
  simpa using at_index (List.finRange n) v ⟨i, hi⟩

/-- R98: `ldkey`. -/
theorem hostWrites_ldkey {s : State} (hb : s.busy = false) (K : Vector Byte 32) :
    hostWrites (ldkeyWrites K) s = { s with key := keyOfBytes K } := by
  have any : ∀ (ks : List (Fin 8)) (w : KeyWords) (s : State), s.busy = false →
      hostWrites (ks.map fun k => (RegName.key k, (w[k] : Word))) s =
        { s with key := ks.foldl (fun u (k : Fin 8) => u.set k (w[k] : Word)) s.key } := by
    intro ks w
    induction ks with
    | nil => intro s _; rfl
    | cons a ks ih =>
      intro s hb
      show hostWrites _ (memWrite s (RegName.key a).offset w[a]) = _
      rw [memWrite_offset hb]
      exact ih (writeReg s w[a] (.key a)) hb
  rw [ldkeyWrites, any _ _ s hb, foldl_set_eq]

/-- R98: `ldnonce`. -/
theorem hostWrites_ldnonce {s : State} (hb : s.busy = false) (N : Vector Byte 12) :
    hostWrites (ldnonceWrites N) s = { s with nonce := nonceOfBytes N } := by
  have any : ∀ (ks : List (Fin 3)) (w : NonceWords) (s : State), s.busy = false →
      hostWrites (ks.map fun k => (RegName.nonce k, (w[k] : Word))) s =
        { s with nonce := ks.foldl (fun u (k : Fin 3) => u.set k (w[k] : Word)) s.nonce } := by
    intro ks w
    induction ks with
    | nil => intro s _; rfl
    | cons a ks ih =>
      intro s hb
      show hostWrites _ (memWrite s (RegName.nonce a).offset w[a]) = _
      rw [memWrite_offset hb]
      exact ih (writeReg s w[a] (.nonce a)) hb
  rw [ldnonceWrites, any _ _ s hb, foldl_set_eq]

/-- R98: `lddin`. -/
theorem hostWrites_lddin {s : State} (hb : s.busy = false) (B : List Byte) :
    hostWrites (lddinWrites B) s = { s with din := blockOfBytes B } := by
  have any : ∀ (ks : List (Fin 16)) (w : Block) (s : State), s.busy = false →
      hostWrites (ks.map fun k => (RegName.din k, (w[k] : Word))) s =
        { s with din := ks.foldl (fun u (k : Fin 16) => u.set k (w[k] : Word)) s.din } := by
    intro ks w
    induction ks with
    | nil => intro s _; rfl
    | cons a ks ih =>
      intro s hb
      show hostWrites _ (memWrite s (RegName.din a).offset w[a]) = _
      rw [memWrite_offset hb]
      exact ih (writeReg s w[a] (.din a)) hb
  rw [lddinWrites, any _ _ s hb, foldl_set_eq]

/-- R98: `ldidx`. -/
theorem hostWrites_ldidx {s : State} (hb : s.busy = false) (i : BitVec 64) :
    hostWrites (ldidxWrites i) s = { s with blkidx := i } := by
  have halves : i.extractLsb' 32 32 ++
      ((s.blkidx.extractLsb' 32 32 ++ i.extractLsb' 0 32 : BitVec 64)).extractLsb' 0 32 = i := by
    refine BitVec.eq_of_getLsbD_eq fun j hj => ?_
    simp only [BitVec.getLsbD_append, BitVec.getLsbD_extractLsb']
    by_cases h : j < 32
    · simp [h]
    · have e : 32 + (j - 32) = j := by omega
      have h' : j - 32 < 32 := by omega
      simp [h, e, h']
  simp only [hostWrites, ldidxWrites, List.foldl]
  rw [memWrite_offset hb, memWrite_offset (show (writeReg s _ .blkidxLo).busy = false from hb)]
  simp only [writeReg]
  rw [halves]

/-! ### Results -/

/-- R52: one host read is one step of the machine. -/
theorem step_read (r : RegName) (s : State) (rest : List Turn) :
    step { s with turns := .host (.read .w32 r.offset) :: rest } =
      .next (hostRead r { s with turns := rest }).2 := by
  show checkAccess .w32 r.offset _ = _
  simp only [checkAccess, aligned_offset, if_true]
  rfl

@[simp] theorem hostReads_nil (s : State) : hostReads [] s = ([], s) := rfl

@[simp] theorem hostReads_cons (r : RegName) (rs : List RegName) (s : State) :
    hostReads (r :: rs) s =
      ((hostRead r s).1 :: (hostReads rs (hostRead r s).2).1, (hostReads rs (hostRead r s).2).2) := rfl

/-- One word for each host read. -/
theorem hostReads_length (rs : List RegName) (s : State) : (hostReads rs s).1.length = rs.length := by
  induction rs generalizing s with
  | nil => rfl
  | cons r rs ih => simp [ih]

/-- A host read does not depend on the events to come, and keeps them. -/
theorem hostRead_turns (r : RegName) (s : State) (l : List Turn) :
    hostRead r { s with turns := l } = ((hostRead r s).1, { (hostRead r s).2 with turns := l }) := by
  have word : memRead (drift { s with turns := l }) r.offset = memRead (drift s) r.offset := by
    rw [memRead_offset, memRead_offset]
    cases r <;> rfl
  simp only [hostRead, word]
  rfl

/-- The words of host reads do not depend on the events to come. -/
theorem hostReads_turns (rs : List RegName) (s : State) (l : List Turn) :
    (hostReads rs { s with turns := l }).1 = (hostReads rs s).1 := by
  induction rs generalizing s with
  | nil => rfl
  | cons r rs ih => simp only [hostReads_cons, hostRead_turns, ih]

/-- R95: the host's step at `rd NAME -> t` is one host read, whose word the variable takes. -/
theorem System.step_rd {y : System} {r : RegName} {t : Nat} (running : y.host.status = .running)
    (stmt : y.host.prog[y.host.pos]? = some (.rd r t)) :
    y.step .host = .next ⟨{ (hostRead r y.core).2 with turns := [] }, y.host.bind t (hostRead r y.core).2⟩ := by
  show y.hostStep = _
  unfold System.hostStep
  simp only [running, if_true, stmt]
  show y.event _ _ = _
  unfold System.event
  simp only [step_read r y.core [], hostRead_turns]
  rfl

/-- What host reads leave: they change only the model's own fields and the hidden datapath, and each
of them takes a draw of its own. -/
theorem hostReads_leave (rs : List RegName) (s : State) :
    ∃ l d, (hostReads rs s).2 = { s with lanes := l, readData := d, tick := s.tick + rs.length } := by
  induction rs generalizing s with
  | nil => exact ⟨_, _, rfl⟩
  | cons r rs ih =>
    obtain ⟨l, d, h⟩ := ih (hostRead r s).2
    refine ⟨l, d, ?_⟩
    rw [hostReads_cons, h, List.length_cons, Nat.add_comm rs.length]
    exact congrArg (fun n => { s with lanes := l, readData := d, tick := n }) (Nat.add_assoc s.tick 1 _)

/-- R98: `rddout` writes nothing of the core's record. -/
theorem readDout_leave (s : State) :
    ∃ l d, (readDout s).2 = { s with lanes := l, readData := d, tick := s.tick + 16 } :=
  hostReads_leave doutRegs s

/-- R52: while BUSY = 0 host reads return what one read of each register returns. -/
theorem hostReads_words (rs : List RegName) {s : State} (hb : s.busy = false) :
    (hostReads rs s).1 = rs.map (readReg s) := by
  induction rs generalizing s with
  | nil => rfl
  | cons r rs ih =>
    have same : ∀ (q : RegName) (d : Option Word),
        readReg { drift s with readData := d } q = readReg s q := fun q d => by
      cases q <;> simp [readReg, exactUnlessBusy, drift, statusWord, hb]
    have first : (hostRead r s).1 = readReg s r := by
      rw [hostRead, memRead_offset]
      exact same r s.readData
    have others : rs.map (readReg (hostRead r s).2) = rs.map (readReg s) :=
      List.map_congr_left fun q _ => same q _
    rw [hostReads_cons, ih (show (hostRead r s).2.busy = false from hb), first, others, List.map_cons]

/-- R98: `rddout` while BUSY = 0 returns the bytes of DOUT. -/
theorem readDout_eq {s : State} (hb : s.busy = false) : (readDout s).1 = bytesOfBlock s.dout := by
  have list : s.dout.toList = (List.finRange 16).map fun k => s.dout[k] :=
    List.ext_getElem (by simp) fun i h1 h2 => by simp
  have words : doutRegs.map (readReg s) = s.dout.toList := by
    rw [list, doutRegs, List.map_map]
    exact List.map_congr_left fun k _ => by simp [readReg, exactUnlessBusy, hb]
  rw [readDout, hostReads_words doutRegs hb, words, bytesOfBlock]

/-- The bytes of a list of words, one by one. -/
theorem flatMap_le32Bytes_getElem? (ws : List Word) (j : Nat) :
    (ws.flatMap le32Bytes)[j]? = (ws[j / 4]?).map (wordByte · (j % 4)) := by
  induction ws generalizing j with
  | nil => simp
  | cons a ws ih =>
    rw [List.flatMap_cons]
    by_cases h : j < 4
    · rw [List.getElem?_append_left h]
      have : j = 0 ∨ j = 1 ∨ j = 2 ∨ j = 3 := by omega
      rcases this with rfl | rfl | rfl | rfl <;> simp [le32Bytes]
    · rw [List.getElem?_append_right (by simp [le32Bytes]; omega)]
      have e : j / 4 = (j - 4) / 4 + 1 := by omega
      have e' : (j - 4) % 4 = j % 4 := by omega
      have l : (le32Bytes a).length = 4 := rfl
      rw [l, ih, e', e, List.getElem?_cons_succ]

/-- R35: byte `j` of the 64 bytes of a block. -/
theorem bytesOfBlock_getElem? (v : Block) {j : Nat} (h : j < 64) :
    (bytesOfBlock v)[j]? = some (byteAt v j) := by
  have h' : j / 4 < 16 := by omega
  rw [bytesOfBlock, bytesOfWords, flatMap_le32Bytes_getElem?]
  simp [h', byteAt]

/-- R35: a block has 64 bytes. -/
theorem bytesOfBlock_length (v : Block) : (bytesOfBlock v).length = 64 := by
  have any : ∀ ws : List Word, (ws.flatMap le32Bytes).length = 4 * ws.length := fun ws => by
    induction ws with
    | nil => rfl
    | cons a ws ih =>
      rw [List.flatMap_cons, List.length_append, ih]
      simp [le32Bytes]
      omega
  rw [bytesOfBlock, bytesOfWords, any]
  simp

/-! ### Commands -/

/-- R97: a command call on an idle core runs the command its word decodes to, from its issue (R208). -/
theorem runCommand_eq {i : Instr} {s : State} (hb : s.busy = false)
    (hd : decodeWord (encode i) = .ok i) : runCommand i s = exec i (issue (encode i) s) := by
  unfold runCommand
  rw [memWrite_offset hb]
  show coreTurn (issue (encode i) s) = _
  simp [coreTurn, coreTurnWith, completeStepWith, hd]

/-- R157: one turn of the chunk loop. -/
theorem sendChunks_cons (c : List Byte) (cs : List (List Byte)) (s : State) :
    sendChunks (c :: cs) s =
      match runCommand (.xorChunk c.length) (hostWrites (lddinWrites c) s) with
      | .next t =>
        if t.err = .ok then
          match sendChunks cs (readDout t).2 with
          | some r => some ⟨(readDout t).1.take c.length ++ r.out, r.err, r.core⟩
          | none => none
        else some ⟨[], t.err, t⟩
      | .fault _ => none
      | .refused _ => none := by
  rw [sendChunks]
  first | done | rfl

end Sys2Proof.Machine
end

