-- ==== Sys2Proof/Laws/PerInstr.lean ====
section
/-!
SUPPORT. Statements for all commands, one lemma per constructor (LAWS.json).
`EncodesItsRow`: an encoded well-formed command selects the row of the opcode map that carries its
mnemonic (spec/30_encoding.md R87).
-/
namespace Sys2Proof.Laws.EncodesItsRow

/-- R87: the encoding of `i` selects the row with `i`'s mnemonic. -/
def Statement (i : Instr) : Prop :=
  i.WellFormed → ∃ r ∈ opcodeMap, r.mnemonic = i.mnemonic ∧ r.selects (encode i) = true

theorem nop : Statement .nop := fun _ => ⟨_, .head _, rfl, by decide⟩

theorem createSession (klen nlen : Nat) : Statement (.createSession klen nlen) := fun _ => by
  refine ⟨_, .tail _ (.head _), rfl, ?_⟩
  have : ∀ k n : Byte,
      (((0x00#8 ++ n ++ k ++ 0x01#8 : Word)) &&& 0xFF0000FF#32) = 0x00000001#32 := by
    intro k n
    refine BitVec.eq_of_getLsbD_eq fun i hi => ?_
    simp only [BitVec.getLsbD_and, BitVec.getLsbD_append]
    interval_cases i <;> simp
  simpa [OpcodeRow.selects, encode] using this (BitVec.ofNat 8 klen) (BitVec.ofNat 8 nlen)

theorem genBlock : Statement .genBlock := fun _ => ⟨_, .tail _ (.tail _ (.head _)), rfl, by decide⟩

theorem xorChunk (len : Nat) : Statement (.xorChunk len) := fun _ => by
  refine ⟨_, .tail _ (.tail _ (.tail _ (.head _))), rfl, ?_⟩
  have : ∀ l : Byte,
      (((0x0000#16 ++ l ++ 0x03#8 : Word)) &&& 0xFFFF00FF#32) = 0x00000003#32 := by
    intro l
    refine BitVec.eq_of_getLsbD_eq fun i hi => ?_
    simp only [BitVec.getLsbD_and, BitVec.getLsbD_append]
    interval_cases i <;> simp
  simpa [OpcodeRow.selects, encode] using this (BitVec.ofNat 8 len)

theorem close : Statement .close := fun _ =>
  ⟨_, .tail _ (.tail _ (.tail _ (.tail _ (.head _)))), rfl, by decide⟩

end Sys2Proof.Laws.EncodesItsRow
end

