-- ==== Sys2Proof/Laws/System.lean ====
section
/-!
SUPPORT. The host and the core together (spec/00_scope.md R8): what one turn of each agent can do, that no turn
of a host program is refused, and runs under an unending schedule (spec/70_reset_and_hazards.md R248).
-/
namespace Sys2Proof.Machine

/-! ### One turn -/

/-- R53: one host write is one step of the machine. -/
theorem step_write (r : RegName) (v : Word) (s : State) (rest : List Turn) :
    step { s with turns := .host (.write .w32 r.offset v) :: rest } =
      .next (memWrite (drift { s with turns := rest }) r.offset v) := by
  show checkAccess .w32 r.offset _ = _
  simp only [checkAccess, aligned_offset, if_true]
  rfl

/-- R209: the core's turn with a command pending completes it. -/
theorem step_core_busy {s : State} (hb : s.busy = true) (rest : List Turn) :
    ∃ t, step { s with turns := .core :: rest } = .next t ∧ t.busy = false ∧ t.done = true := by
  show ∃ t, coreTurn (drift { s with turns := rest }) = .next t ∧ _
  have busy : (drift { s with turns := rest }).busy = true := hb
  simp only [coreTurn, coreTurnWith, busy, if_true, completeStepWith]
  split
  · exact ⟨_, rfl, rfl, rfl⟩
  · obtain ⟨c, u, h, -⟩ := exec_shape _ (drift { s with turns := rest })
    exact ⟨_, h, rfl, rfl⟩

/-- R219: the core's turn with no command pending changes nothing of its record. -/
theorem step_core_idle {s : State} (hb : s.busy = false) (rest : List Turn) :
    step { s with turns := .core :: rest } = .next (drift { s with turns := rest }) := by
  show coreTurn (drift { s with turns := rest }) = _
  have idle : (drift { s with turns := rest }).busy = false := hb
  simp [coreTurn, coreTurnWith, idle]

/-- The turn of an event whose step goes on. -/
theorem System.event_next {y : System} {t : Turn} {c : State} (h : State → HostAgent)
    (hs : Machine.step { y.core with turns := [t] } = .next c) : y.event t h = .next ⟨c, h c⟩ := by
  simp [System.event, hs]

/-- R231: the turn of reset. -/
theorem System.step_reset (y : System) :
    y.step .reset = .next ⟨resetCore (drift { y.core with turns := [] }), y.host⟩ := rfl

/-- R209: the core's turn with a command pending. -/
theorem System.step_core_busy {y : System} (hb : y.core.busy = true) :
    ∃ c, y.step .core = .next ⟨c, y.host⟩ ∧ c.busy = false ∧ c.done = true :=
  let ⟨c, h, done⟩ := Machine.step_core_busy hb []
  ⟨c, System.event_next _ h, done⟩

/-- R219: the core's turn with no command pending. -/
theorem System.step_core_idle {y : System} (hb : y.core.busy = false) :
    y.step .core = .next ⟨drift { y.core with turns := [] }, y.host⟩ :=
  System.event_next _ (Machine.step_core_idle hb [])

/-- R95: the turn of a running host is its next statement. -/
theorem System.step_host {y : System} {st : Stmt} (running : y.host.status = .running)
    (stmt : y.host.prog[y.host.pos]? = some st) : y.step .host = y.execStmt st := by
  show y.hostStep = _
  simp [System.hostStep, running, stmt]

/-- R95: a statement of a host program goes on, and what it does to the core is one read, one write or
nothing. -/
theorem System.execStmt_cases (y : System) (st : Stmt) : ∃ z, y.execStmt st = .next z ∧
    ((∃ r t, st = .rd r t ∧ z.core = (hostRead r { y.core with turns := [] }).2) ∨
     (∃ r v, st = .wr r v ∧ z.core = memWrite (drift { y.core with turns := [] }) r.offset v) ∨
     z.core = y.core) := by
  cases st with
  | wr r v => exact ⟨_, System.event_next _ (step_write r v y.core []), .inr (.inl ⟨r, v, rfl, rfl⟩)⟩
  | rd r t => exact ⟨_, System.event_next _ (step_read r y.core []), .inl ⟨r, t, rfl, rfl⟩⟩
  | _ => exact ⟨_, rfl, .inr (.inr rfl)⟩

/-- No turn of the two agents or of reset is refused: host programs make no access outside R55's contract. -/
theorem System.step_goesOn (y : System) (a : Agent) : ∃ z, y.step a = .next z := by
  cases a with
  | core =>
    cases hb : y.core.busy with
    | true =>
      obtain ⟨c, h, -⟩ := System.step_core_busy hb
      exact ⟨_, h⟩
    | false => exact ⟨_, System.step_core_idle hb⟩
  | reset => exact ⟨_, y.step_reset⟩
  | host =>
    show ∃ z, y.hostStep = .next z
    unfold System.hostStep
    split
    · split
      · rename_i st _
        obtain ⟨z, h, -⟩ := y.execStmt_cases st
        exact ⟨z, h⟩
      · exact ⟨_, rfl⟩
    · exact ⟨_, rfl⟩

/-! ### Runs -/

/-- A run under one schedule and then another. -/
theorem System.run_append {as bs : List Agent} {y z : System} (h : System.run as y = .next z) :
    System.run (as ++ bs) y = System.run bs z := by
  induction as generalizing y with
  | nil =>
    cases h
    rfl
  | cons a as ih =>
    obtain ⟨x, hx⟩ := y.step_goesOn a
    simp only [System.run, hx, List.cons_append] at h ⊢
    exact ih h

/-- Before the first turn nothing has happened. -/
@[simp] theorem System.runUnder_zero (σ : Schedule) (y : System) : y.runUnder σ 0 = .next y := rfl

/-- R8: one turn more of a run under an unending schedule. -/
theorem System.runUnder_succ {σ : Schedule} {n : Nat} {y z : System} (h : y.runUnder σ n = .next z) :
    y.runUnder σ (n + 1) = z.step (σ n) := by
  obtain ⟨x, hx⟩ := z.step_goesOn (σ n)
  rw [System.runUnder, List.range_succ, List.map_append, System.run_append h]
  simp [System.run, hx]

/-- A run under an unending schedule goes on without end. -/
theorem System.runUnder_goesOn (σ : Schedule) (n : Nat) (y : System) : ∃ z, y.runUnder σ n = .next z := by
  induction n with
  | zero => exact ⟨y, rfl⟩
  | succ n ih =>
    obtain ⟨z, h⟩ := ih
    rw [System.runUnder_succ h]
    exact z.step_goesOn (σ n)

end Sys2Proof.Machine
end

