-- ==== Sys2Proof/Tests/Slice0.lean ====
section
/-!
SUPPORT. Tests and witnesses. Expected values come from spec/95_test_vectors.md (the vector is named) or
from the rule named; the words of the decode tests are written out bit by bit from the encodings of
spec/30_encoding.md. A witness shows a concrete state and operands that meet the hypotheses of the
obligation it names, clause by clause at the ends of each range.
-/
namespace Sys2Proof.Tests
open Sys2Proof Sys2Proof.Machine

/-! ### Small states -/

/-- The state an outcome goes on with. -/
def after (o : Host.Outcome State Fault Refusal) : Option State :=
  match o with
  | .next t => some t
  | .fault _ => none
  | .refused _ => none

/-- A session in state `st` at block `n`, with a key and a nonce that are not zero. -/
def session (st : SessionState) (n : BitVec 33) : State :=
  { State.reset with
    skey := #v[1#32, 2#32, 3#32, 4#32, 5#32, 6#32, 7#32, 8#32], snonce := #v[9#32, 10#32, 11#32],
    nextBlk := n, sstate := st }

/-- A core whose registers all hold different values. -/
def full : State :=
  { State.reset with
    key := #v[0x20#32, 0x24#32, 0x28#32, 0x2C#32, 0x30#32, 0x34#32, 0x38#32, 0x3C#32],
    nonce := #v[0x40#32, 0x44#32, 0x48#32], blkidx := 0x0000000C00000008#64,
    din := Vector.ofFn fun k => BitVec.ofNat 32 (0x80 + 4 * k.val),
    dout := Vector.ofFn fun k => BitVec.ofNat 32 (0xC0 + 4 * k.val),
    skey := #v[1#32, 2#32, 3#32, 4#32, 5#32, 6#32, 7#32, 8#32], snonce := #v[9#32, 10#32, 11#32],
    nextBlk := 0x100000000#33, sstate := .exhausted, done := true, err := .counterOverflow }

/-- The event `t` next, on the state `s`. -/
def at1 (t : Turn) (s : State) : State := { s with turns := [t] }

/-- A command word pending at the core's turn. -/
def pending (v : Word) (s : State) : State := { s with pend := v, busy := true, done := false }

/-- One step on `s` with the event `t` next. -/
def stepOf (t : Turn) (s : State) : Option State := after (step (at1 t s))

/-- What a host read at `off` returns. -/
def readOf (off : Offset) (s : State) : Option (Option Word) :=
  (stepOf (.host (.read .w32 off)) s).map (·.readData)

/-- The state after the host has written `v` at `off`. -/
def writeOf (off : Offset) (v : Word) (s : State) : Option State :=
  stepOf (.host (.write .w32 off v)) s

/-- STATUS after the command word `v` completes on `s`. -/
def statusAfter (v : Word) (s : State) : Option Word :=
  (stepOf .core (pending v s)).map statusWord

/-! ### WellFormed: one ill-formed term for each check -/

theorem test_wellFormed_refuses_klen : (Instr.createSession 256 12).wellFormed = false := by decide
theorem test_wellFormed_refuses_nlen : (Instr.createSession 32 256).wellFormed = false := by decide
theorem test_wellFormed_refuses_len : (Instr.xorChunk 256).wellFormed = false := by decide
theorem test_wellFormed_accepts :
    (Instr.createSession 255 255).wellFormed = true ∧ (Instr.xorChunk 255).wellFormed = true ∧
    Instr.nop.wellFormed = true ∧ Instr.genBlock.wellFormed = true ∧ Instr.close.wellFormed = true := by
  decide

/-! ### Decode: words written out from R82 to R84 -/

/-- V-E1. -/
theorem test_decode_nop :
    decodeWord 0b00000000000000000000000000000000#32 = .ok .nop := by decide

/-- V-E2 to V-E7: `00000000 nlen klen 00000001`. -/
theorem test_decode_createSession :
    decodeWord 0b00000000000011000010000000000001#32 = .ok (.createSession 32 12) ∧
    decodeWord 0b00000000000011000001000000000001#32 = .ok (.createSession 16 12) ∧
    decodeWord 0b00000000000010000010000000000001#32 = .ok (.createSession 32 8) ∧
    decodeWord 0b00000000000000000010000000000001#32 = .ok (.createSession 32 0) ∧
    decodeWord 0b00000000111111110000000000000001#32 = .ok (.createSession 0 255) := by decide

/-- V-E8. -/
theorem test_decode_genBlock :
    decodeWord 0b00000000000000000000000000000010#32 = .ok .genBlock := by decide

/-- V-E9 to V-E12: `0000000000000000 len 00000011`. -/
theorem test_decode_xorChunk :
    decodeWord 0b00000000000000000100000000000011#32 = .ok (.xorChunk 64) ∧
    decodeWord 0b00000000000000000100000100000011#32 = .ok (.xorChunk 65) ∧
    decodeWord 0b00000000000000001111111100000011#32 = .ok (.xorChunk 255) ∧
    decodeWord 0b00000000000000000000000000000011#32 = .ok (.xorChunk 0) := by decide

/-- V-E13. -/
theorem test_decode_close :
    decodeWord 0b00000000000000000000000000000100#32 = .ok .close := by decide

/-- V-E14 to V-E20: reserved OPCs, and one must-be-zero bit set in each format. -/
theorem test_decode_illegal :
    decodeWord 0x00000005#32 = .error .reservedOpcode ∧
    decodeWord 0x000000FF#32 = .error .reservedOpcode ∧
    decodeWord 0x00000100#32 = .error .mustBeZero ∧
    decodeWord 0x010C2001#32 = .error .mustBeZero ∧
    decodeWord 0x00000102#32 = .error .mustBeZero ∧
    decodeWord 0x00010003#32 = .error .mustBeZero ∧
    decodeWord 0x80000004#32 = .error .mustBeZero := by decide

/-- R54: the first byte is the least significant; R80: four bytes, no more and no fewer. -/
theorem test_decode_bytes :
    decodeBytes [0x01#8, 0x20#8, 0x0C#8, 0x00#8] = .ok (.createSession 32 12) ∧
    decodeBytes [0x03#8, 0x40#8, 0x00#8] = .error .notOneWord := by decide

/-- The table's numbering: bit 0 is OPC's bit 0. -/
theorem test_decodeTableWord :
    decodeTableWord 32 0x000C2001 = some (.createSession 32 12) ∧
    decodeTableWord 32 0x00004003 = some (.xorChunk 64) ∧ decodeTableWord 32 5 = none ∧
    decodeTableWord 40 0 = none := by decide

/-- The first step after reset runs the placed word: V-E2's STATUS. -/
theorem test_placed_word_runs :
    (after (step (State.reset.withFetchWord 32 0x000C2001))).map statusWord = some 0x00000011#32 := by
  decide

/-! ### The permutation -/

/-- V-P2, the single-bit rows. -/
theorem test_quarterRound_bits :
    quarterRound 1#32 0#32 0#32 0#32 = (0x10000001#32, 0x80808808#32, 0x01010110#32, 0x01000110#32) ∧
    quarterRound 0#32 1#32 0#32 0#32 = (0x10001001#32, 0x88888808#32, 0x01110110#32, 0x01100110#32) ∧
    quarterRound 0#32 0#32 1#32 0#32 = (0x00001000#32, 0x08080080#32, 0x00100001#32, 0x00100000#32) ∧
    quarterRound 0#32 0#32 0#32 1#32 = (0x10000000#32, 0x80800808#32, 0x01010010#32, 0x01000010#32) ∧
    quarterRound 0x80000000#32 0x80000000#32 0#32 0#32 =
      (0x00000800#32, 0x04040000#32, 0x00080000#32, 0x00080000#32) := by decide +kernel

/-- V-P4's state, from R102's example. -/
def s102 : Block :=
  initState #v[0x03020100#32, 0x07060504#32, 0x0B0A0908#32, 0x0F0E0D0C#32, 0x13121110#32, 0x17161514#32,
    0x1B1A1918#32, 0x1F1E1D1C#32] 1#32 #v[0x09000000#32, 0x4A000000#32, 0#32]

/-- V-P5, the column round. -/
theorem test_columnRound : columnRound s102 =
    #v[0xABBAA25C#32, 0x1EFA51EA#32, 0x7354FBDF#32, 0x83D2DC69#32, 0x3A465196#32, 0x1C7E64F6#32,
      0xB12FB628#32, 0xF05B6976#32, 0x6B3CA454#32, 0x08EB14B1#32, 0xBF8A9AC9#32, 0xE444DF3B#32,
      0xDEC62ED2#32, 0x8862CC77#32, 0x6E35B345#32, 0x52A647F1#32] := by decide +kernel

/-- V-P5, the double round. -/
theorem test_doubleRound : doubleRound s102 =
    #v[0xCD52E917#32, 0x85AB03B4#32, 0xB3457395#32, 0xF96DE7DD#32, 0xC4B7CD22#32, 0x5C2E187A#32,
      0xC95EB461#32, 0x316C801A#32, 0x7BF7D740#32, 0x7EDDD644#32, 0xF1A1BDF5#32, 0x761246CA#32,
      0x6B0D58A3#32, 0x6798471A#32, 0xD737F167#32, 0xF173888D#32] := by decide +kernel

/-! ### The commands, from the vectors -/

/-- V-C1, and V-C12 on an Exhausted session. -/
theorem test_nop : statusAfter 0x00000000#32 State.reset = some 0x00000010#32 ∧
    statusAfter 0x00000000#32 full = some 0x00000013#32 := by decide

/-- V-E14 to V-E20: an illegal word completes with code 4; a session's SSTATE stays. -/
theorem test_illegal_codes :
    statusAfter 0x00000005#32 State.reset = some 0x00000410#32 ∧
    statusAfter 0x000000FF#32 State.reset = some 0x00000410#32 ∧
    statusAfter 0x00000100#32 State.reset = some 0x00000410#32 ∧
    statusAfter 0x010C2001#32 State.reset = some 0x00000410#32 ∧
    statusAfter 0x00000102#32 State.reset = some 0x00000410#32 ∧
    statusAfter 0x00010003#32 State.reset = some 0x00000410#32 ∧
    statusAfter 0x80000004#32 State.reset = some 0x00000410#32 ∧
    statusAfter 0x00000005#32 (session .streaming 1#33) = some 0x00000412#32 := by decide

/-- V-E2 to V-E7. -/
theorem test_createSession_codes :
    statusAfter 0x000C2001#32 State.reset = some 0x00000011#32 ∧
    statusAfter 0x000C1001#32 State.reset = some 0x00000110#32 ∧
    statusAfter 0x00082001#32 State.reset = some 0x00000210#32 ∧
    statusAfter 0x00081001#32 State.reset = some 0x00000110#32 ∧
    statusAfter 0x00002001#32 State.reset = some 0x00000210#32 ∧
    statusAfter 0x00FF0001#32 State.reset = some 0x00000110#32 := by decide

/-- V-C3, V-C5: replacement, with DOUT cleared and the new copies latched. -/
theorem test_createSession_replaces :
    (stepOf .core (pending 0x000C2001#32 full)).map
        (fun t => (t.skey, t.snonce, t.nextBlk, t.dout[15], statusWord t)) =
      some (full.key, full.nonce, 0#33, 0#32, 0x00000011#32) := by decide

/-- V-K1. -/
theorem test_genBlock_block1 :
    (after (exec .genBlock { State.reset with
      key := #v[0x03020100#32, 0x07060504#32, 0x0B0A0908#32, 0x0F0E0D0C#32, 0x13121110#32, 0x17161514#32,
        0x1B1A1918#32, 0x1F1E1D1C#32],
      nonce := #v[0x09000000#32, 0x4A000000#32, 0#32], blkidx := 1#64 })).map (·.dout) =
    some #v[0xE4E7F110#32, 0x15593BD1#32, 0x1FDD0F50#32, 0xC47120A3#32, 0xC7F4D1C7#32, 0x0368C033#32,
      0x9AAA2204#32, 0x4E6CD4C3#32, 0x466482D2#32, 0x09AA9F07#32, 0x05D7C214#32, 0xA2028BD9#32,
      0xD19C12B5#32, 0xB94E16DE#32, 0xE883D0CB#32, 0x4E3C50A2#32] := by decide +kernel

/-- V-K6, V-K6b, V-K6c: every index of 2^32 or more is rejected, DOUT unchanged. -/
theorem test_genBlock_overflow :
    (after (exec .genBlock { full with blkidx := 0x0000000100000000#64 })).map (fun t => (t.err, t.dout[0], t.sstate)) =
      some (.counterOverflow, 0xC0#32, .exhausted) ∧
    (after (exec .genBlock { full with blkidx := 0xFFFFFFFFFFFFFFFF#64 })).map (fun t => (t.err, t.dout[0], t.sstate)) =
      some (.counterOverflow, 0xC0#32, .exhausted) ∧
    (after (exec .genBlock { full with blkidx := 0x8000000000000005#64 })).map (fun t => (t.err, t.dout[0], t.sstate)) =
      some (.counterOverflow, 0xC0#32, .exhausted) := by decide

/-- V-X2: one byte, 0x76 ^ 0xFF = 0x89, the rest of DOUT zero. -/
theorem test_xorChunk_one_byte :
    (after (exec (.xorChunk 1) { State.reset with
      sstate := .created, din := State.reset.din.set 0 0x000000FF#32 })).map
        (fun t => (t.dout[0], t.dout[1], t.dout[15], t.nextBlk, t.sstate)) =
    some (0x00000089#32, 0#32, 0#32, 1#33, .streaming) := by decide +kernel

/-- V-E9 to V-E12, V-S8, V-X7, V-X9, V-C16: the codes and their order. -/
theorem test_xorChunk_codes :
    statusAfter 0x00004003#32 State.reset = some 0x00000510#32 ∧
    statusAfter 0x00004103#32 State.reset = some 0x00000610#32 ∧
    statusAfter 0x00000003#32 State.reset = some 0x00000510#32 ∧
    statusAfter 0x00000103#32 (session .streaming 0x100000000#33) = some 0x00000313#32 ∧
    statusAfter 0x00000003#32 (session .streaming 0x100000000#33) = some 0x00000012#32 ∧
    statusAfter 0x00000003#32 full = some 0x00000313#32 ∧
    statusAfter 0x00004103#32 full = some 0x00000613#32 ∧
    statusAfter 0x00000003#32 (session .closed 3#33) = some 0x00000514#32 := by decide

/-- V-C6, V-C8, V-C9, V-C10, V-E13. -/
theorem test_close_codes :
    statusAfter 0x00000004#32 full = some 0x00000513#32 ∧
    statusAfter 0x00000004#32 (session .created 0#33) = some 0x00000014#32 ∧
    statusAfter 0x00000004#32 (session .closed 3#33) = some 0x00000514#32 ∧
    statusAfter 0x00000004#32 State.reset = some 0x00000510#32 := by decide

/-- V-C9: NEXT_BLK is kept, the copies and DOUT are cleared, the staging key is not (R244). -/
theorem test_close_clears :
    (stepOf .core (pending 0x00000004#32 { full with sstate := .streaming, nextBlk := 3#33 })).map
        (fun t => (t.nextBlk, t.skey, t.snonce, t.dout, t.key)) =
      some (3#33, Vector.replicate 8 0#32, Vector.replicate 3 0#32, zeroBlock, full.key) := by decide

/-! ### The register interface -/

/-- V-B12, and STATUS as V-S8 leaves it, on a core whose registers all differ. -/
theorem test_read_map :
    readOf 0x00#8 full = some (some 0#32) ∧
    readOf 0x04#8 full = some (some 0x00000313#32) ∧
    readOf 0x08#8 full = some (some 8#32) ∧
    readOf 0x0C#8 full = some (some 12#32) ∧
    readOf 0x10#8 full = some (some 0#32) ∧
    readOf 0x14#8 full = some (some 1#32) ∧
    readOf 0x18#8 full = some (some 0#32) ∧
    readOf 0x1C#8 full = some (some 0#32) ∧
    readOf 0x20#8 full = some (some 0#32) ∧
    readOf 0x3C#8 full = some (some 0#32) ∧
    readOf 0x40#8 full = some (some 0x40#32) ∧
    readOf 0x48#8 full = some (some 0x48#32) ∧
    readOf 0x4C#8 full = some (some 0#32) ∧
    readOf 0x7C#8 full = some (some 0#32) ∧
    readOf 0x80#8 full = some (some 0x80#32) ∧
    readOf 0xBC#8 full = some (some 0xBC#32) ∧
    readOf 0xC0#8 full = some (some 0xC0#32) ∧
    readOf 0xFC#8 full = some (some 0xFC#32) := by
  decide +kernel

/-- V-B2 to V-B8: what a write leaves at its own offset. -/
theorem test_write_then_read :
    (writeOf 0x2C#8 0xCAFEF00D#32 State.reset).bind (readOf 0x2C#8) = some (some 0#32) ∧
    (writeOf 0x44#8 0xCAFEF00D#32 State.reset).bind (readOf 0x44#8) = some (some 0xCAFEF00D#32) ∧
    (writeOf 0x0C#8 0xCAFEF00D#32 State.reset).bind (readOf 0x0C#8) = some (some 0xCAFEF00D#32) ∧
    (writeOf 0x08#8 0xCAFEF00D#32 State.reset).bind (readOf 0x08#8) = some (some 0xCAFEF00D#32) ∧
    (writeOf 0x04#8 0xCAFEF00D#32 State.reset).bind (readOf 0x04#8) = some (some 0#32) ∧
    (writeOf 0x10#8 0xCAFEF00D#32 State.reset).bind (readOf 0x10#8) = some (some 0#32) ∧
    (writeOf 0xC0#8 0xCAFEF00D#32 State.reset).bind (readOf 0xC0#8) = some (some 0#32) ∧
    (writeOf 0x18#8 0xCAFEF00D#32 State.reset).bind (readOf 0x18#8) = some (some 0#32) ∧
    (writeOf 0x4C#8 0xCAFEF00D#32 State.reset).bind (readOf 0x4C#8) = some (some 0#32) ∧
    (writeOf 0xBC#8 0xCAFEF00D#32 State.reset).bind (readOf 0xBC#8) = some (some 0xCAFEF00D#32) := by
  decide +kernel

/-- V-B10: byte 0 of DIN is the least significant byte of DIN0. -/
theorem test_din_bytes :
    (writeOf 0x80#8 0x44332211#32 State.reset).map (fun t => (List.range 4).map (byteAt t.din)) =
      some [0x11#8, 0x22#8, 0x33#8, 0x44#8] := by decide

/-- V-H3, V-H6: a write while busy is lost and sets WIGN. -/
theorem test_write_while_busy :
    (writeOf 0x80#8 0x11111111#32 (pending 0#32 full)).map (fun t => (t.din, t.wign, t.busy)) =
      some (full.din, true, true) ∧
    (writeOf 0x00#8 0x00000004#32 (pending 0#32 full)).map (fun t => (t.pend, t.wign)) =
      some (0#32, true) := by decide

/-- V-H1, V-H2: reset while a command is pending. -/
theorem test_reset_while_busy :
    (stepOf .reset (pending 0x00004003#32 full)).map
        (fun t => (statusWord t, t.nextBlk, t.skey, t.pend, t.blkidx)) =
      some (0#32, 0#33, Vector.replicate 8 0#32, 0#32, 0#64) := by decide

/-- R54: a host address and the offset it selects. -/
theorem test_offsetOfAddress :
    offsetOfAddress 0x4000 0x40C4 = some 0xC4#8 ∧ offsetOfAddress 0x4000 0x4100 = none ∧
    offsetOfAddress 0x4000 0x3FFF = none := by decide

/-! ### The host -/

/-- R96, R97: the expansion of `cmdw NOP` as the second line of a program. -/
theorem test_cmdw_expansion :
    expandProgram [.ldidx 5#64, .cmdw .nop 0] =
      [.wr .blkidxLo 5#32, .wr .blkidxHi 0#32, .wr .cmd 0#32, .label (.fresh 1), .rd .status 0,
       .bnz 0 0x00000008#32 (.fresh 1)] := by decide

/-- R95, R96: a program that waits for a NOP halts with STATUS read, whatever the latency; here the host
polls once before the core's step. -/
theorem test_program_runs :
    (match System.run (.host :: .host :: .host :: .host :: .host :: .core :: List.replicate 5 .host)
        (System.start [.cmdw .nop 0, .stmt .halt] State.reset) with
      | .next y => some (y.host.status, y.host.vars.head?, statusWord y.core)
      | .fault _ => none
      | .refused _ => none) = some (.halted, some (0, 0x00000010#32), 0x00000010#32) := by decide

/-- R98: `rddout -> O`: the bytes of O, formed from the words the program bound; of the sixteen variables
from the next one on, the last is unbound. -/
theorem test_rddout_program :
    (match System.run (List.replicate 16 .host) (System.start [.rddout 3, .stmt .halt]
        { State.reset with dout := (State.reset.dout.set 0 0x44332211#32).set 15 0x88776655#32 }) with
      | .next y => (y.host.readout 3).map fun O => (O.take 5, O.drop 59, y.host.readout 4)
      | .fault _ => none
      | .refused _ => none) =
    some ([0x11#8, 0x22#8, 0x33#8, 0x44#8, 0x00#8], [0x00#8, 0x55#8, 0x66#8, 0x77#8, 0x88#8], none) := by
  decide +kernel

/-- R241: while BUSY = 1 the sixteen reads of `rddout` are sixteen draws of their own. -/
theorem test_rddout_busy :
    (hostReads doutRegs (pending 0#32 State.reset)).1 =
      [1, 2, 3, 4, 5, 6, 7, 8, 9, 10, 11, 12, 13, 14, 15, 16].map Config.anyRead := rfl

/-- Log entry 21: a program with `cmd XOR_CHUNK 256`, or with `lddin` of 65 bytes, is malformed at its start. -/
theorem test_line_outside_domain :
    (System.start [.cmd (.xorChunk 256), .stmt .halt] State.reset).host.status = .malformed ∧
    (System.start [.lddin (List.replicate 65 0#8), .stmt .halt] State.reset).host.status = .malformed ∧
    (System.start [.cmd (.xorChunk 255), .lddin (List.replicate 64 0#8)] State.reset).host.status =
      .running := by decide

/-! ### The host's duties (R234) -/

/-- R234 (b): two new sessions under one key need different nonces. -/
theorem test_oneSessionPerMessage :
    OneSessionPerMessage [session .created 0#33,
      { session .created 0#33 with snonce := #v[0#32, 0#32, 0#32] }] ∧
    ¬ OneSessionPerMessage [session .created 0#33, session .created 0#33] ∧
    ¬ OneSessionPerMessage [session .streaming 1#33] := by
  refine ⟨⟨by decide, by simp; decide⟩, fun h => ?_, fun h => ?_⟩
  · have := h.2
    simp at this
  · exact absurd (h.1 _ (.head _)) (by decide)

/-- R234 (d): one use after the other is serialized, in either order of the agents. -/
theorem test_serializedHosts :
    SerializedHosts
      [⟨0, [.write .w32 0x80#8 1#32, .read .w32 0xC0#8]⟩, ⟨1, [.read .w32 0x04#8]⟩]
      [(1, .read .w32 0x04#8), (0, .write .w32 0x80#8 1#32), (0, .read .w32 0xC0#8)] :=
  ⟨[⟨1, [.read .w32 0x04#8]⟩, ⟨0, [.write .w32 0x80#8 1#32, .read .w32 0xC0#8]⟩],
    fun a => by
      by_cases h0 : (0 : Nat) = a
      · subst h0; decide
      · by_cases h1 : (1 : Nat) = a
        · subst h1; decide
        · simp [h0, h1],
    by decide⟩

/-- R234 (d): with an access of another agent inside a use, the accesses are not serialized. -/
theorem test_serializedHosts_refuses :
    ¬ SerializedHosts
      [⟨0, [.write .w32 0x80#8 1#32, .read .w32 0xC0#8]⟩, ⟨1, [.read .w32 0x04#8]⟩]
      [(0, .write .w32 0x80#8 1#32), (1, .read .w32 0x04#8), (0, .read .w32 0xC0#8)] := by
  rintro ⟨order, hf, ht⟩
  cases order with
  | nil => cases ht
  | cons u us =>
    have h0 := hf 0
    have h1 := hf 1
    by_cases e0 : u.agent = 0
    · have hu : u = ⟨0, [.write .w32 0x80#8 1#32, .read .w32 0xC0#8]⟩ := by
        simp [e0] at h0
        exact h0.1
      subst hu
      simp at ht
    · by_cases e1 : u.agent = 1
      · have hu : u = ⟨1, [.read .w32 0x04#8]⟩ := by
          simp [e1] at h1
          exact h1.1
        subst hu
        simp at ht
      · have hu := hf u.agent
        simp [Ne.symm e0, Ne.symm e1] at hu

/-! ### Witnesses: encoding and the step -/

theorem witness_DecodeOfEncode :
    ∀ i ∈ [Instr.nop, .createSession 0 0, .createSession 255 255, .genBlock, .xorChunk 0, .xorChunk 255,
      .close], i.WellFormed := by decide

theorem witness_EncodeOfDecode : decodeWord 0x00FFFF01#32 = .ok (.createSession 255 255) := by decide

theorem witness_OpcodeMapRows :
    opcodeMap.map (fun r => r.selects 0x00FFFF01#32) = [false, true, false, false, false] ∧
    opcodeMap.map (fun r => r.selects 0x0000FF03#32) = [false, false, false, true, false] := by decide

/-- Every alternative of the illegal words, at the ends of its range. -/
theorem witness_IllegalWords :
    (∀ v, nextTurn (at1 .core (pending v full)) = .core ∧ (at1 .core (pending v full)).busy = true ∧
      (at1 .core (pending v full)).pend = v) ∧
    decodeWord 0x00000005#32 = .error .reservedOpcode ∧
    decodeWord 0x000000FF#32 = .error .reservedOpcode ∧
    decodeWord 0x00000100#32 = .error .mustBeZero ∧
    decodeWord 0x80000000#32 = .error .mustBeZero ∧
    decodeWord 0x00000102#32 = .error .mustBeZero ∧
    decodeWord 0x80000004#32 = .error .mustBeZero ∧
    decodeWord 0x01000001#32 = .error .mustBeZero ∧
    decodeWord 0x80000001#32 = .error .mustBeZero ∧
    decodeWord 0x00010003#32 = .error .mustBeZero ∧
    decodeWord 0x80000003#32 = .error .mustBeZero :=
  ⟨fun _ => ⟨rfl, rfl, rfl⟩, by decide⟩

theorem witness_StepRuns :
    (nextTurn (at1 .core full) = .core ∧ full.busy = false) ∧
    (nextTurn State.reset = .core) ∧
    (nextTurn (at1 .core (pending 0x00000005#32 full)) = .core ∧
      decodeWord (pending 0x00000005#32 full).pend = .error .reservedOpcode) ∧
    (nextTurn (at1 .core (pending 0x00004003#32 full)) = .core ∧ (pending 0x00004003#32 full).busy = true ∧
      decodeWord (pending 0x00004003#32 full).pend = .ok (.xorChunk 64)) := by decide

theorem witness_PlacedWord : decodeTableWord 32 0x00000004 = some .close := by decide

/-! ### Witnesses: the host port, reset and the invariants -/

/-- Every clause of the read statement at the ends of its range (values: `test_read_map`), and the
clauses that hold while BUSY = 1. -/
theorem witness_HostRead :
    (∀ off ∈ [0x00#8, 0x04#8, 0x08#8, 0x0C#8, 0x10#8, 0x14#8, 0x18#8, 0x3C#8, 0x40#8, 0x48#8, 0x4C#8,
        0x7C#8, 0x80#8, 0xBC#8, 0xC0#8, 0xFC#8],
      nextTurn (at1 (.host (.read .w32 off)) full) = .host (.read .w32 off) ∧ off.toNat % 4 = 0 ∧
        full.busy = false) ∧
    (readOf 0x04#8 (pending 0#32 full) = some (some 0x0000030B#32) ∧
      readOf 0xBC#8 (pending 0#32 full) = some (some 0xBC#32)) := by decide +kernel

/-- Every clause of the write statement at the ends of its range: the registers that change are those
the clause names. -/
theorem witness_HostWrite :
    (∀ off ∈ [0x00#8, 0x04#8, 0x08#8, 0x0C#8, 0x10#8, 0x1C#8, 0x20#8, 0x3C#8, 0x40#8, 0x48#8, 0x4C#8,
        0x7C#8, 0x80#8, 0xBC#8, 0xC0#8, 0xFC#8],
      nextTurn (at1 (.host (.write .w32 off 7#32)) full) = .host (.write .w32 off 7#32) ∧
        off.toNat % 4 = 0 ∧ full.busy = false ∧ (pending 0#32 full).busy = true) ∧
    (writeOf 0x3C#8 7#32 full).map (·.key) = some (full.key.set 7 7#32) ∧
    (writeOf 0x40#8 7#32 full).map (·.nonce) = some (full.nonce.set 0 7#32) ∧
    (writeOf 0x48#8 7#32 full).map (·.nonce) = some (full.nonce.set 2 7#32) ∧
    (writeOf 0xBC#8 7#32 full).map (·.din) = some (full.din.set 15 7#32) ∧
    (writeOf 0x00#8 7#32 full).map (fun t => (t.pend, t.busy, t.done)) = some (7#32, true, false) ∧
    (writeOf 0xFC#8 7#32 full).map (·.dout) = some full.dout := by decide

theorem witness_StatusHoldsItsFields :
    full.busy = false ∧ (pending 0#32 full).busy = true ∧ statusWord full = 0x00000313#32 := by decide

/-- R25, R200: every state and every code is held by some state, idle and busy. -/
theorem witness_StatusNumbers :
    (∀ p ∈ sstateNumbers, ({ full with sstate := p.1 } : State).sstate = p.1) ∧
    (∀ p ∈ errNumbers, ({ full with err := p.1 } : State).err = p.1) ∧
    sstateNumbers.length = 5 ∧ errNumbers.length = 7 := by decide

theorem witness_OutOfContract :
    (∀ w ∈ [Width.w8, .w16, .w64],
      nextTurn (at1 (.host (.read w 0x04#8)) full) = .host (.read w 0x04#8) ∧ w ≠ .w32 ∧
      after (step (at1 (.host (.read w 0x04#8)) full)) = none) ∧
    (∀ off ∈ [0x01#8, 0x05#8, 0xFF#8], off.toNat % 4 ≠ 0 ∧ stepOf (.host (.write .w32 off 1#32)) full = none ∧
      stepOf (.host (.read .w32 off)) full = none) := by decide

theorem witness_RepeatedWrite :
    (0x04#8 : Offset) ≠ 0x00#8 ∧ (0xFC#8 : Offset) ≠ 0x00#8 ∧ (pending 0#32 full).busy = true := by decide

theorem witness_HostAccess :
    (readOf 0xC0#8 full).isSome = true ∧ (writeOf 0x80#8 7#32 full).isSome = true ∧
    (writeOf 0x00#8 7#32 (pending 0#32 full)).isSome = true := by decide

theorem witness_Reset : nextTurn (at1 .reset (pending 0x00004003#32 full)) = .reset ∧
    (stepOf .reset (pending 0x00004003#32 full)).isSome = true ∧
    (stepOf .reset { pending 0x00004003#32 full with turns := [.core] }).map nextTurn = some .core := by decide

/-- A state that meets R42 in each session state, and one with a command pending. -/
theorem witness_Inv : (session .created 0#33).Inv ∧ (session .streaming 0x100000000#33).Inv ∧
    (session .streaming 1#33).Inv ∧ full.Inv ∧ { State.reset with sstate := .closed }.Inv ∧
    (pending 0x00004003#32 (session .streaming 0x100000000#33)).Inv := by
  refine ⟨?_, ?_, ?_, ?_, ?_, ?_⟩ <;> constructor <;> decide

theorem witness_StepKeeps : (stepOf .core (pending 0x00000103#32 (session .streaming 0x100000000#33))).map
    (·.sstate) = some .exhausted := by decide

theorem witness_LaneCount : (stepOf .core full).isSome = true := by decide

/-- Each clause's change happens. -/
theorem witness_FlagsChange :
    (full.busy = false ∧ full.done = true ∧
      (writeOf 0x00#8 7#32 full).map (fun t => (t.busy, t.done)) = some (true, false)) ∧
    ((pending 0#32 full).busy = true ∧ (pending 0#32 full).done = false ∧
      (stepOf .core (pending 0#32 full)).map (fun t => (t.busy, t.done, t.err)) = some (false, true, .ok) ∧
      full.err ≠ .ok) ∧
    ((pending 0#32 full).wign = false ∧
      (writeOf 0x80#8 7#32 (pending 0#32 full)).map (·.wign) = some true) ∧
    ((writeOf 0x00#8 7#32 { full with wign := true }).map (fun t => (t.wign, t.pend)) =
      some (false, 7#32)) ∧
    ((stepOf .reset { full with wign := true }).map (fun t => (t.wign, t.done, t.err)) =
      some (false, false, .ok)) ∧
    ((stepOf .reset (pending 7#32 full)).map (fun t => (t.busy, t.pend)) = some (false, 0#32)) := by decide

theorem witness_OperandsStay :
    (∀ a ∈ [Access.read .w32 0x04#8, .write .w32 0x80#8 7#32], a.inContract = true) ∧
    (pending 0#32 full).busy = true ∧
    { pending 0#32 full with
        turns := [.host (.read .w32 0x04#8), .host (.write .w32 0x80#8 7#32), .core] }.turns =
      [Access.read .w32 0x04#8, .write .w32 0x80#8 7#32].map .host ++ [.core] := by decide

theorem witness_EveryIssuedCommandCompletes :
    (pending 0#32 full).busy = true ∧
    (∀ e ∈ [Turn.host (.read .w32 0x04#8), .core], e ≠ .reset ∧ e.inContract = true) ∧
    (∀ e ∈ (pending 0#32 full).turns, e ≠ .reset ∧ e.inContract = true) := by decide

/-! ### Witnesses: the commands -/

theorem witness_Nop : (0x00000100#32 : Word).toNat % 256 = 0x00 ∧ 256 ≤ (0x00000100#32 : Word).toNat := by
  decide

theorem witness_CreateSession : (31 : Nat) ≠ 32 ∧ (33 : Nat) ≠ 32 ∧ (11 : Nat) ≠ 12 ∧ (13 : Nat) ≠ 12 ∧
    (0x01000001#32 : Word).toNat % 256 = 0x01 ∧ 2 ^ 24 ≤ (0x01000001#32 : Word).toNat := by decide

theorem witness_GenBlock :
    ({ full with blkidx := 0xFFFFFFFF#64 } : State).blkidx.toNat < 2 ^ 32 ∧
    2 ^ 32 ≤ ({ full with blkidx := 0x100000000#64 } : State).blkidx.toNat ∧
    (0x00000102#32 : Word).toNat % 256 = 0x02 ∧ 256 ≤ (0x00000102#32 : Word).toNat := by decide

theorem witness_XorChunk :
    ((session .created 0#33).sstate = .created ∧ (session .created 0#33).nextBlk.toNat < 2 ^ 32) ∧
    ((session .streaming 0xFFFFFFFF#33).sstate = .streaming ∧
      (session .streaming 0xFFFFFFFF#33).nextBlk.toNat < 2 ^ 32) ∧
    ((session .streaming 0x100000000#33).sstate = .streaming ∧
      2 ^ 32 ≤ (session .streaming 0x100000000#33).nextBlk.toNat) ∧
    (State.reset.sstate = .noSession ∧ (session .closed 0#33).sstate = .closed ∧
      full.sstate = .exhausted) ∧
    (64 : Nat) < 65 ∧
    (0x00010003#32 : Word).toNat % 256 = 0x03 ∧ 2 ^ 16 ≤ (0x00010003#32 : Word).toNat := by decide

theorem witness_Close :
    ((session .created 0#33).sstate = .created ∧ (session .streaming 1#33).sstate = .streaming) ∧
    (State.reset.sstate = .noSession ∧ full.sstate = .exhausted ∧
      (session .closed 1#33).sstate = .closed) ∧
    (0x00000104#32 : Word).toNat % 256 = 0x04 ∧ 256 ≤ (0x00000104#32 : Word).toNat := by decide

/-- An error of each of the two kinds. -/
theorem witness_ErrorsWriteOnlyTheirCode :
    (after (exec .close full)).map (·.err) = some .illegalState ∧
    (after (exec (.xorChunk 1) (session .streaming 0x100000000#33))).map (fun t => (t.err, t.sstate)) =
      some (.counterOverflow, .exhausted) := by decide

theorem witness_RegisterSpace :
    (after (exec .close full)).isSome = true ∧
    ∀ off ∈ [(0x00#8 : Offset), 0x08#8, 0x0C#8, 0x18#8, 0xBC#8],
      off ≠ 0x04#8 ∧ off ≠ 0x10#8 ∧ off ≠ 0x14#8 ∧ off.toNat < 0xC0 := by decide

/-! ### Witnesses: the session -/

/-- A step of each kind from states of `witness_Inv`. -/
theorem witness_Transitions :
    (stepOf .reset full).map (·.sstate) = some .noSession ∧
    (writeOf 0x80#8 7#32 full).isSome = true ∧ (stepOf .core full).isSome = true ∧
    (stepOf .core (pending 5#32 (session .streaming 1#33))).map (·.err) = some .illegalCommand ∧
    (stepOf .core (pending 0x000C2001#32 full)).map (fun t => (t.sstate, t.nextBlk)) =
      some (.created, 0#33) := by decide

/-- The consuming rows of R177, at the first block, at the last one and beyond it. -/
theorem witness_Transitions_consuming :
    (stepOf .core (pending 0x00000103#32 (session .created 0#33))).map (·.nextBlk) = some 1#33 ∧
    (stepOf .core (pending 0x00004003#32 (session .streaming 0xFFFFFFFF#33))).map
      (fun t => (t.sstate, t.nextBlk)) = some (.streaming, 0x100000000#33) ∧
    (stepOf .core (pending 0x00004003#32 (session .streaming 0x100000000#33))).map
      (fun t => (t.sstate, t.nextBlk)) = some (.exhausted, 0x100000000#33) := by decide

theorem witness_ExhaustedIsTerminal :
    full.sstate = .exhausted ∧
    (stepOf .reset full).map (·.sstate) = some .noSession ∧
    (stepOf .core (pending 0x000C2001#32 full)).map (·.sstate) = some .created ∧
    (stepOf .core (pending 0x00000103#32 full)).map (·.err) = some .counterOverflow ∧
    (stepOf .core (pending 0x00004103#32 full)).map (·.err) = some .invalidLength ∧
    (stepOf .core (pending 0x00000004#32 full)).map (·.err) = some .illegalState ∧
    (stepOf .core (pending 0x00000000#32 full)).map (·.err) = some .ok := by decide

/-- Each way NEXT_BLK changes, at the last block too, and a step that keeps it. -/
theorem witness_SessionCounter :
    (stepOf .core (pending 0x00000103#32 (session .streaming 0xFFFFFFFF#33))).map
      (fun t => (t.err, t.nextBlk)) = some (.ok, 0x100000000#33) ∧
    (stepOf .core (pending 0x00004003#32 (session .created 0#33))).map (fun t => (t.err, t.nextBlk)) =
      some (.ok, 1#33) ∧
    (stepOf .core (pending 0x000C2001#32 full)).map (·.nextBlk) = some 0#33 ∧
    (stepOf .reset full).map (·.nextBlk) = some 0#33 ∧
    (stepOf .core full).map (·.nextBlk) = some full.nextBlk := by decide

/-- Each way SKEY changes, and the premise of its third clause, idle and busy. -/
theorem witness_SessionKey :
    (stepOf .reset full).map (fun t => decide (t.skey = full.skey)) = some false ∧
    (stepOf .core (pending 0x000C2001#32 full)).map (fun t => decide (t.skey = full.skey)) = some false ∧
    (stepOf .core (pending 0x00000004#32 (session .created 0#33))).map
      (fun t => decide (t.skey = (session .created 0#33).skey)) = some false ∧
    (∀ len, Instr.close ≠ .xorChunk len) ∧ full.busy = false ∧
    ((pending 0#32 full).busy = true ∧ (0xBC#8 : Offset) ≠ 0x10#8 ∧ (0xBC#8 : Offset) ≠ 0x14#8 ∧
      (0xBC#8 : Offset).toNat < 0xC0) := by
  refine ⟨by decide, by decide, by decide, fun _ h => (by cases h), by decide, by decide⟩

/-- Two states that differ in every secret. -/
theorem witness_HostReadsRevealNoKey :
    (let t := { full with
      key := Vector.replicate 8 0#32, skey := Vector.replicate 8 0#32, snonce := Vector.replicate 3 0#32,
      pend := 7#32 }
     t.key ≠ full.key ∧ t.skey ≠ full.skey ∧ t.nonce = full.nonce ∧ t.blkidx = full.blkidx ∧
     t.din = full.din ∧ t.dout = full.dout ∧ t.nextBlk = full.nextBlk ∧ t.sstate = full.sstate ∧
     t.busy = full.busy ∧ t.done = full.done ∧ t.wign = full.wign ∧ t.err = full.err ∧
     full.busy = false) ∧
    ((pending 0#32 full).busy = true ∧ (0xBC#8 : Offset) ≠ 0x10#8 ∧ (0xBC#8 : Offset) ≠ 0x14#8 ∧
      (0xBC#8 : Offset).toNat < 0xC0) := by decide

/-! ### Witnesses: the keystream, messages and the permutation -/

/-- Two states that share the operands and differ in the session. -/
theorem witness_GenBlockDepends :
    (let s := { full with blkidx := 0xFFFFFFFF#64 }
     let t := { session .created 0#33 with key := full.key, nonce := full.nonce, blkidx := 0xFFFFFFFF#64 }
     t.key = s.key ∧ t.nonce = s.nonce ∧ t.blkidx = s.blkidx ∧ s.blkidx.toNat < 2 ^ 32 ∧
     t.sstate ≠ s.sstate) := by decide

theorem witness_GenBlockAgrees :
    (let t := session .streaming 0xFFFFFFFF#33
     let s := { full with key := t.skey, nonce := t.snonce, blkidx := 0xFFFFFFFF#64 }
     t.skey = s.key ∧ t.snonce = s.nonce ∧ t.nextBlk.toNat = s.blkidx.toNat ∧ s.blkidx.toNat < 2 ^ 32 ∧
     t.sstate = .streaming ∧ ∀ k : Fin 16, t.din[k] = 0#32) := by decide

theorem witness_CounterWord : validIndex 0xFFFFFFFF = true ∧ validIndex 0x100000000 = false := by decide

/-- A source whose block at index `i` is 64 times the byte `i`. -/
def plainSource : BlockSource := fun i => Vector.replicate 64 (BitVec.ofNat 8 i)

/-- The two cases of stream_xor, where they meet: one chunk at the last valid index, one beyond, and none. -/
theorem witness_StreamXor_limit :
    (let P := List.replicate 64 0x01#8
     P.length ≤ 64 * 1 ∧ 64 * 1 < P.length + 64 ∧ ¬(0 < 1 ∧ 0xFFFFFFFF + 1 - 1 > 2 ^ 32 - 1) ∧
     (0 < 1 ∧ 0x100000000 + 1 - 1 > 2 ^ 32 - 1)) ∧
    (([] : List Byte).length ≤ 64 * 0 ∧ 64 * 0 < ([] : List Byte).length + 64 ∧
      ¬(0 < 0 ∧ 0x100000000 + 0 - 1 > 2 ^ 32 - 1)) := by decide

/-- Two messages of equal length, of two chunks each, the second chunk short; and the counter limit. -/
theorem witness_StreamXor :
    streamXor plainSource 7 (List.replicate 65 0x01#8) = .ok (List.replicate 64 0x06#8 ++ [0x09#8]) ∧
    streamXor plainSource 7 (List.replicate 65 0x02#8) = .ok (List.replicate 64 0x05#8 ++ [0x0A#8]) ∧
    streamXor plainSource 0xFFFFFFFF [0x01#8] = .ok [0xFE#8] ∧
    streamXor plainSource 0x100000000 [] = .ok [] ∧
    streamXor plainSource 0x100000000 [0x01#8] = .error .counterOverflow := by decide +kernel

/-- The chunk loop's two cases, where they meet. -/
theorem witness_ChunkLoop :
    (let s := session .streaming 0xFFFFFFFF#33
     s.busy = false ∧ s.sstate = .streaming ∧ s.nextBlk.toNat ≤ 2 ^ 32 ∧
     s.nextBlk.toNat + chunkCount (List.replicate 64 0x01#8).length ≤ 2 ^ 32 ∧
     2 ^ 32 < s.nextBlk.toNat + chunkCount (List.replicate 65 0x01#8).length) ∧
    (let s := session .created 0#33
     s.busy = false ∧ s.sstate = .created ∧ s.nextBlk.toNat + chunkCount ([] : List Byte).length ≤ 2 ^ 32) := by
  decide

/-- R164: 100,000 bytes are 1563 chunks. -/
theorem witness_Decryption : State.reset.busy = false ∧ chunkCount 100000 = 1563 ∧ (1563 : Nat) ≤ 2 ^ 32 := by
  decide

theorem witness_DisjointQuarterRounds :
    ([0, 4, 8, 12, 1, 5, 9, 13] : List (Fin 16)).Nodup ∧
    ([2, 7, 8, 13, 3, 4, 9, 14] : List (Fin 16)).Nodup := by decide

/-- An allowed schedule: the unrolled one. -/
theorem witness_AllowedSchedules : AllowedSchedule unrolledSchedule.run := fun _ => rfl

/-- Host and core in turn: a schedule fair to every system, in which the host goes on. -/
def inTurn : Schedule := fun n => if n % 2 = 0 then .host else .core

/-- The system of a program that waits, with a command pending. -/
def waiting : System := System.start [.wait 0, .stmt .halt] (pending 0#32 full)

theorem witness_Fairness : WeaklyFair inTurn waiting ∧ HostGoesOn inTurn ∧ waiting.core.busy = true ∧
    AtWait waiting.host 0 0 := by
  refine ⟨fun n _ => ⟨2 * n + 1, by omega, ?_⟩, fun n => ⟨2 * n, by omega, ?_⟩, rfl, ⟨rfl, ⟨[.halt], rfl⟩, rfl⟩⟩
  · simp [inTurn]
  · simp [inTurn]

/-- R248: where the host alone has turns the command stays pending: after three polls the host is where it was. -/
theorem test_hostAlone_waits_on : ∀ k ∈ [0, 3, 6, 9], ∃ z, waiting.runUnder (fun _ => .host) k = .next z ∧
    z.host.pos = 0 ∧ z.core.busy = true := by
  simp only [List.forall_mem_cons]
  refine ⟨⟨_, rfl, rfl, rfl⟩, ⟨_, rfl, rfl, rfl⟩, ⟨_, rfl, rfl, rfl⟩, ⟨_, rfl, rfl, rfl⟩, by simp⟩

/-- The lines after `rddout`, and an idle and a busy core. -/
theorem witness_Readout : [Line.rddout 3, .lddin (List.replicate 64 0xFF#8), .stmt .halt].all Line.wellFormed =
    true ∧ State.reset.busy = false ∧ (pending 0#32 full).busy = true := by decide

theorem witness_HostCalls : State.reset.busy = false ∧ (List.replicate 64 0xFF#8).length ≤ 64 ∧
    (0xFFFFFFFF#64 : BitVec 64).toNat < 2 ^ 32 ∧ 2 ^ 32 ≤ (0x100000000#64 : BitVec 64).toNat := by decide

end Sys2Proof.Tests
end

/-!
Proofs of the family 00_scope.md (R7): the datapath schedule is a free parameter of the machine (R7 (c), R113),
and there is one working storage per permutation unit (R7 (a), R39).
-/
namespace Sys2Proof.Machine

/-! ### The datapath schedule -/

/-- R7 (c), R113: the unit of an allowed schedule computes R108's function. -/
theorem scheduledUnit_of_allowed {σ : DatapathSchedule} (allowed : AllowedSchedule σ.run) :
    scheduledUnit σ = chachaBlockWords := by
  funext k n ctr
  rw [scheduledUnit, allowed, chachaBlockWords_eq]

/-- R113: under an allowed schedule a command does what `exec` says. Only the two commands that compute a
block ask the unit for it. -/
theorem execOn_of_allowed {σ : DatapathSchedule} (allowed : AllowedSchedule σ.run) : execOn σ = exec := by
  have unit : scheduledUnit σ = chachaBlockWords := scheduledUnit_of_allowed allowed
  funext i s
  cases i with
  | nop => rfl
  | createSession klen nlen => rfl
  | genBlock => exact congrArg (genBlockOn · s) unit
  | xorChunk len => exact congrArg (fun u => xorChunkWith (sourceOf u s.skey s.snonce) len s) unit
  | close => rfl

/-- R8, R113: the schedule enters a step through its commands alone. -/
theorem stepOn_of_allowed {σ : DatapathSchedule} (allowed : AllowedSchedule σ.run) : stepOn σ = step := by
  funext s
  rw [stepOn, execOn_of_allowed allowed, step, runTurn]

/-- Settles O48: the unit of an allowed schedule is R108's function, and commands and steps depend on the
schedule through the unit alone. -/
theorem allowedSchedulesGiveTheSameMachine : Obligations.AllowedSchedulesGiveTheSameMachine := by
  intro σ allowed
  exact ⟨fun i s => congrFun (congrFun (execOn_of_allowed allowed) i) s, congrFun (stepOn_of_allowed allowed)⟩

/-! ### The working storage -/

/-- R53: no register write reaches the hidden datapath. -/
@[simp] theorem writeReg_lanes (s : State) (v : Word) (r : RegName) : (writeReg s v r).lanes = s.lanes := by
  cases r <;> rfl

/-- R53, R240: no host write reaches the hidden datapath. -/
@[simp] theorem memWrite_lanes (s : State) (off : Offset) (v : Word) :
    (memWrite s off v).lanes = s.lanes := by
  rcases memWrite_cases s off v with ⟨_, e⟩ | ⟨_, r, _, e⟩ | ⟨_, _, e⟩
  · rw [e]
  · rw [e, writeReg_lanes]
  · rw [e]

/-- R52, R53: a host access leaves the hidden datapath alone. -/
theorem hostTurn_lanes {a : Access} {s t : State} (h : hostTurn a s = .next t) : t.lanes = s.lanes := by
  rcases hostTurn_cases h with ⟨off, _, _, rfl⟩ | ⟨off, v, _, _, rfl⟩
  · rfl
  · exact memWrite_lanes s off v

/-- R202: a command leaves the working storage as its turn found it; the model redraws it before the turn. -/
theorem exec_lanes {i : Instr} {s t : State} (h : exec i s = .next t) : t.lanes = s.lanes := by
  obtain ⟨c, u, e, shape⟩ := exec_shape i s
  cases e.symm.trans h
  rcases shape with rfl | ⟨_, _, rfl⟩ | ⟨_, _, _, rfl⟩ | ⟨_, _, _, rfl⟩ | ⟨_, _, _, _, _, _, _, rfl⟩ |
    ⟨_, _, _, _, _, _, _, rfl⟩ <;> rfl

/-- U6: after a step the working storage is what was drawn for its turn, whatever the event. -/
theorem step_lanes {s t : State} (h : step s = .next t) :
    t.lanes = (List.range Config.nLanes).map (Config.laneContents s.tick) := by
  rw [← turnState_lanes]
  rcases step_cases h with ⟨_, rfl⟩ | ⟨a, _, host⟩ | ⟨_, _, rfl⟩ | ⟨_, _, _, rfl⟩ | ⟨_, _, i, _, run⟩
  · exact resetCore_lanes _
  · exact hostTurn_lanes host
  · rfl
  · exact complete_lanes _ _
  · exact exec_lanes run

/-- R7 (a): there is at least one permutation unit. -/
theorem Config.one_le_nLanes : 1 ≤ Config.nLanes := Nat.le_add_left 1 Config.extraLanes

/-- R39: the state after reset holds one working storage per permutation unit. -/
theorem reset_lanes_length : State.reset.lanes.length = Config.nLanes := List.length_replicate

/-- Settles O17: no event changes the working storage that was drawn for its turn, and each draw is of N_LANES. -/
theorem everyStepKeepsTheLaneCount : Obligations.EveryStepKeepsTheLaneCount := by
  refine ⟨⟨reset_lanes_length, Config.one_le_nLanes⟩, fun s t h => ?_⟩
  rw [step_lanes h, List.length_map, List.length_range]

end Sys2Proof.Machine

/-!
Proofs of the family 10_state.md: the invariants of R42, and what each step can do to the session slot, the flags,
ERR and NEXT_BLK, the fields of STATUS, and what host reads depend on.
-/
namespace Sys2Proof.Machine

/-! ### What a host access leaves unchanged -/

/-- R26 to R29, R38: the flags, ERR and PEND are the same. -/
structure SameFlags (s t : State) : Prop where
  busy : t.busy = s.busy
  done : t.done = s.done
  wign : t.wign = s.wign
  err : t.err = s.err
  pend : t.pend = s.pend

/-- R36, R53: no register write reaches the session slot. -/
theorem writeReg_sameSlot (s : State) (v : Word) (r : RegName) : SameSlot s (writeReg s v r) := by
  cases r <;> exact ⟨rfl, rfl, rfl, rfl⟩

/-- R53: a write of a register other than CMD leaves the flags, ERR and PEND alone. -/
theorem writeReg_sameFlags (s : State) (v : Word) {r : RegName} (h : r ≠ .cmd) :
    SameFlags s (writeReg s v r) := by
  cases r with
  | cmd => exact absurd rfl h
  | _ => exact ⟨rfl, rfl, rfl, rfl, rfl⟩

/-- R35: DOUT cannot be written. -/
@[simp] theorem writeReg_dout (s : State) (v : Word) (r : RegName) : (writeReg s v r).dout = s.dout := by
  cases r <;> rfl

/-- R29: ERR cannot be written. -/
@[simp] theorem writeReg_err (s : State) (v : Word) (r : RegName) : (writeReg s v r).err = s.err := by
  cases r <;> rfl

/-- R36, R53: no host write reaches the session slot. -/
theorem memWrite_sameSlot (s : State) (off : Offset) (v : Word) : SameSlot s (memWrite s off v) := by
  rcases memWrite_cases s off v with ⟨_, e⟩ | ⟨_, r, _, e⟩ | ⟨_, _, e⟩ <;> rw [e]
  · exact ⟨rfl, rfl, rfl, rfl⟩
  · exact writeReg_sameSlot s v r
  · exact ⟨rfl, rfl, rfl, rfl⟩

/-- R35: no host write reaches DOUT. -/
@[simp] theorem memWrite_dout (s : State) (off : Offset) (v : Word) : (memWrite s off v).dout = s.dout := by
  rcases memWrite_cases s off v with ⟨_, e⟩ | ⟨_, r, _, e⟩ | ⟨_, _, e⟩ <;> simp [e]

/-- R29: no host write reaches ERR. -/
@[simp] theorem memWrite_err (s : State) (off : Offset) (v : Word) : (memWrite s off v).err = s.err := by
  rcases memWrite_cases s off v with ⟨_, e⟩ | ⟨_, r, _, e⟩ | ⟨_, _, e⟩ <;> simp [e]

/-- R28, R208, R240: to the flags, ERR and PEND a host write is an ignored write, an issue or nothing. -/
theorem memWrite_flags_cases (s : State) (off : Offset) (v : Word) :
    (s.busy = true ∧ memWrite s off v = { s with wign := true }) ∨
    (s.busy = false ∧ off = 0x00#8 ∧ memWrite s off v = issue v s) ∨
    (s.busy = false ∧ SameFlags s (memWrite s off v)) := by
  rcases memWrite_cases s off v with busy | ⟨hb, r, hr, e⟩ | ⟨hb, _, e⟩
  · exact .inl busy
  · by_cases hcmd : r = .cmd
    · subst hcmd
      exact .inr (.inl ⟨hb, offset_of_regAt hr, e⟩)
    · exact .inr (.inr ⟨hb, by rw [e]; exact writeReg_sameFlags s v hcmd⟩)
  · exact .inr (.inr ⟨hb, by rw [e]; exact ⟨rfl, rfl, rfl, rfl, rfl⟩⟩)

/-- R36: a host access that goes on leaves the session slot alone. -/
theorem hostTurn_sameSlot {a : Access} {s t : State} (h : hostTurn a s = .next t) : SameSlot s t := by
  rcases hostTurn_cases h with ⟨off, _, _, rfl⟩ | ⟨off, v, _, _, rfl⟩
  · exact ⟨rfl, rfl, rfl, rfl⟩
  · exact memWrite_sameSlot s off v

/-! ### The invariants -/

/-- R25: every session state has a code of the table. -/
theorem SessionState.code_le (x : SessionState) : x.code.toNat ≤ 4 := by cases x <;> decide

/-- R200: every completion code is one of the table. -/
theorem ErrCode.code_le (e : ErrCode) : e.code.toNat ≤ 6 := by cases e <;> decide

/-- R42: of a state the invariants see the session slot, BUSY and DONE. -/
theorem State.Inv.of_sameSlot {s t : State} (hi : s.Inv) (slot : SameSlot s t)
    (flags : t.busy = true → t.done = false) : t.Inv where
  sstate_code := t.sstate.code_le
  nextBlk_le := slot.nextBlk ▸ hi.nextBlk_le
  noSession h := by
    rw [slot.nextBlk, slot.skey, slot.snonce]
    exact hi.noSession (slot.sstate ▸ h)
  created h := slot.nextBlk ▸ hi.created (slot.sstate ▸ h)
  streaming h := slot.nextBlk ▸ hi.streaming (slot.sstate ▸ h)
  exhausted h := slot.nextBlk ▸ hi.exhausted (slot.sstate ▸ h)
  closed h := by
    rw [slot.skey, slot.snonce]
    exact hi.closed (slot.sstate ▸ h)
  busy_done := flags
  err_code := t.err.code_le

/-- R42, R209: completion, with any code, keeps the invariants. -/
theorem complete_inv {s : State} (hi : s.Inv) (c : ErrCode) : (complete c s).Inv :=
  hi.of_sameSlot ⟨rfl, rfl, rfl, rfl⟩ fun hb => absurd hb (by simp)

/-- R42, R172: a new session is Created with NEXT_BLK 0. -/
theorem startSession_inv {s : State} (hi : s.Inv) : (startSession s).Inv := by
  refine ⟨SessionState.code_le _, ?_, ?_, ?_, ?_, ?_, ?_, hi.busy_done, hi.err_code⟩ <;> simp

/-- R42, R174: a closed session has its copies cleared and keeps NEXT_BLK. -/
theorem endSession_inv {s : State} (hi : s.Inv) : (endSession s).Inv := by
  refine ⟨SessionState.code_le _, hi.nextBlk_le, ?_, ?_, ?_, ?_, ?_, hi.busy_done, hi.err_code⟩ <;> simp

/-- R133: NEXT_BLK is one bit wider than the last valid index, so its increment does not wrap. -/
theorem toNat_nextBlk_add_one {x : BitVec 33} (h : x.toNat < 2 ^ 32) : (x + 1#33).toNat = x.toNat + 1 := by
  rw [BitVec.toNat_add]
  exact Nat.mod_eq_of_lt (by simp; omega)

/-- R42, R150: a consumed block leaves a streaming session with NEXT_BLK in 1 to 2^32. -/
theorem consumeBlock_inv {s : State} (hi : s.Inv) (below : s.nextBlk.toNat < 2 ^ 32) (ks : BlockBytes)
    (len : Nat) : (consumeBlock ks len s).Inv := by
  have next : (consumeBlock ks len s).nextBlk.toNat = s.nextBlk.toNat + 1 := toNat_nextBlk_add_one below
  refine ⟨SessionState.code_le _, by omega, ?_, ?_, fun _ => by omega, ?_, ?_, hi.busy_done, hi.err_code⟩ <;> simp

/-- R42, R150: a session is exhausted only at the limit, which NEXT_BLK never passes. -/
theorem exhausted_inv {s : State} (hi : s.Inv) (limit : 2 ^ 32 ≤ s.nextBlk.toNat) :
    { s with sstate := .exhausted }.Inv := by
  have eq : s.nextBlk.toNat = 2 ^ 32 := Nat.le_antisymm hi.nextBlk_le limit
  refine ⟨SessionState.code_le _, hi.nextBlk_le, ?_, ?_, ?_, fun _ => eq, ?_, hi.busy_done, hi.err_code⟩ <;> simp

/-- R42, R202: every command keeps the invariants. -/
theorem exec_inv {i : Instr} {s t : State} (hi : s.Inv) (h : exec i s = .next t) : t.Inv := by
  obtain ⟨c, u, e, shape⟩ := exec_shape i s
  cases e.symm.trans h
  refine complete_inv ?_ c
  rcases shape with rfl | ⟨_, _, rfl⟩ | ⟨_, _, _, rfl⟩ | ⟨_, _, _, rfl⟩ | ⟨len, _, _, _, _, _, below, rfl⟩ |
    ⟨_, _, _, _, _, _, limit, rfl⟩
  · exact hi
  · exact startSession_inv hi
  · exact endSession_inv hi
  · exact hi.of_sameSlot ⟨rfl, rfl, rfl, rfl⟩ hi.busy_done
  · exact consumeBlock_inv hi below _ len
  · exact exhausted_inv hi limit

/-- R42 (h), R208: a host write leaves DONE clear wherever it leaves BUSY set. -/
theorem memWrite_inv {s : State} (hi : s.Inv) (off : Offset) (v : Word) : (memWrite s off v).Inv := by
  refine hi.of_sameSlot (memWrite_sameSlot s off v) ?_
  rcases memWrite_flags_cases s off v with ⟨_, e⟩ | ⟨_, _, e⟩ | ⟨_, same⟩
  · rw [e]; exact hi.busy_done
  · rw [e]; exact fun _ => rfl
  · rw [same.busy, same.done]; exact hi.busy_done

/-- R42: a host access that goes on keeps the invariants. -/
theorem hostTurn_inv {a : Access} {s t : State} (hi : s.Inv) (h : hostTurn a s = .next t) : t.Inv := by
  rcases hostTurn_cases h with ⟨off, _, _, rfl⟩ | ⟨off, v, _, _, rfl⟩
  · exact hi.of_sameSlot ⟨rfl, rfl, rfl, rfl⟩ hi.busy_done
  · exact memWrite_inv hi off v

/-- R42: the model's bookkeeping around an event keeps the invariants. -/
theorem turnState_inv {s : State} (hi : s.Inv) : (turnState s).Inv :=
  hi.of_sameSlot ⟨rfl, rfl, rfl, rfl⟩ hi.busy_done

/-- Settles O15: with no session, the slot and NEXT_BLK at 0 and BUSY clear. -/
theorem resetMeetsTheInvariants : Obligations.ResetMeetsTheInvariants := by
  refine ⟨SessionState.code_le _, ?_, fun _ => ⟨rfl, rfl, rfl⟩, ?_, ?_, ?_, ?_, ?_, ErrCode.code_le _⟩ <;> simp

/-- R42, R230: reset, from any state, meets the invariants. -/
theorem resetCore_inv (s : State) : (resetCore s).Inv :=
  resetMeetsTheInvariants.of_sameSlot ⟨rfl, rfl, rfl, rfl⟩ fun hb => absurd hb (by simp)

/-- Settles O16, by the cases of the step: each kind of event keeps the invariants. -/
theorem stepKeepsTheInvariants : Obligations.StepKeepsTheInvariants := by
  intro s t hi h
  rcases step_cases h with ⟨_, rfl⟩ | ⟨a, _, host⟩ | ⟨_, _, rfl⟩ | ⟨_, _, _, rfl⟩ | ⟨_, _, i, _, run⟩
  · exact resetCore_inv _
  · exact hostTurn_inv (turnState_inv hi) host
  · exact turnState_inv hi
  · exact complete_inv (turnState_inv hi) _
  · exact exec_inv (turnState_inv hi) run

/-! ### The step at a named event -/

/-- R8: at a host access the step is that access. -/
theorem step_host {s : State} {a : Access} (hn : nextTurn s = .host a) : step s = hostTurn a (turnState s) := by
  rw [step, hn]; rfl

/-- R231: at reset the step is reset. -/
theorem step_reset {s : State} (hn : nextTurn s = .reset) : step s = .next (resetCore (turnState s)) := by
  rw [step, hn]; rfl

/-! ### NEXT_BLK -/

/-- R37, R136: the two ways a command changes NEXT_BLK: a new session, or one consumed block. -/
theorem exec_nextBlk_cases {i : Instr} {s t : State} (h : exec i s = .next t) :
    t.nextBlk = s.nextBlk ∨
    (i = .createSession 32 12 ∧ t.nextBlk = 0#33 ∧ t.sstate = .created) ∨
    ∃ len, i = .xorChunk len ∧ 1 ≤ len ∧ len ≤ 64 ∧ t.err = .ok ∧ s.nextBlk.toNat < 2 ^ 32 ∧
      t.nextBlk.toNat = s.nextBlk.toNat + 1 := by
  obtain ⟨c, u, e, shape⟩ := exec_shape i s
  cases e.symm.trans h
  rcases shape with rfl | ⟨hi, _, rfl⟩ | ⟨_, _, _, rfl⟩ | ⟨_, _, _, rfl⟩ |
    ⟨len, hi, ok, pos, fits, _, below, rfl⟩ | ⟨_, _, _, _, _, _, _, rfl⟩
  · exact .inl rfl
  · exact .inr (.inl ⟨hi, rfl, rfl⟩)
  · exact .inl rfl
  · exact .inl rfl
  · exact .inr (.inr ⟨len, hi, pos, fits, ok, below, toNat_nextBlk_add_one below⟩)
  · exact .inl rfl

/-- R150, R133: an XOR_CHUNK of at least one byte that completes with OK has consumed one block. -/
theorem exec_xorChunk_ok {len : Nat} {s t : State} (h : exec (.xorChunk len) s = .next t) (pos : 1 ≤ len)
    (ok : t.err = .ok) : s.nextBlk.toNat < 2 ^ 32 ∧ t.nextBlk.toNat = s.nextBlk.toNat + 1 := by
  rcases exec_xorChunk_cases len s with ⟨_, e⟩ | ⟨_, _, e⟩ | ⟨_, _, e⟩ | ⟨zero, _, _⟩ |
    ⟨_, _, _, below, e⟩ | ⟨_, _, _, _, e⟩
  · cases e.symm.trans h; cases ok
  · cases e.symm.trans h; cases ok
  · cases e.symm.trans h; cases ok
  · omega
  · cases e.symm.trans h
    exact ⟨below, toNat_nextBlk_add_one below⟩
  · cases e.symm.trans h; cases ok

/-- R172: CREATE_SESSION with the lengths 32 and 12 succeeds. -/
theorem exec_createSession_ok (s : State) :
    exec (.createSession 32 12) s = .next (complete .ok (startSession s)) := rfl

/-- Settles O30: a step changes NEXT_BLK by reset or by a command, which sets it to 0 or consumes one block. -/
theorem sessionCounterAdvancesByOne : Obligations.SessionCounterAdvancesByOne := by
  intro s t h
  refine ⟨?_, ?_, ?_, ?_⟩
  · rcases step_cases h with ⟨hn, rfl⟩ | ⟨a, _, host⟩ | ⟨_, _, rfl⟩ | ⟨_, _, _, rfl⟩ | ⟨hn, hb, i, hd, run⟩
    · exact .inr (.inl ⟨hn, rfl⟩)
    · exact .inl (hostTurn_sameSlot host).nextBlk
    · exact .inl rfl
    · exact .inl rfl
    · rcases exec_nextBlk_cases run with same | ⟨rfl, zero, created⟩ | ⟨len, rfl, consumed⟩
      · exact .inl same
      · exact .inr (.inr ⟨hn, hb, .inl ⟨hd, zero, created⟩⟩)
      · exact .inr (.inr ⟨hn, hb, .inr ⟨len, hd, consumed⟩⟩)
  · intro hn hb len hd pos ok
    rw [step_core hn hb hd] at h
    simpa using exec_xorChunk_ok h pos ok
  · intro hn hb hd
    rw [step_core hn hb hd, exec_createSession_ok] at h
    cases h
    rfl
  · intro hn
    rw [step_reset hn] at h
    cases h
    rfl

/-! ### Host accesses as steps -/

/-- R52: a step that is a read leaves the core's record alone. -/
theorem read_sameCore (s : State) (d : Option Word) : SameCore s { turnState s with readData := d } := by
  constructor <;> rfl

/-- Settles O13: a read stores into the model's own field only, and no register that a write reaches is in the
session slot, DOUT or ERR. -/
theorem hostAccessLeavesTheSessionAndResults : Obligations.HostAccessLeavesTheSessionAndResults := by
  intro s t a hn h
  rw [step_host hn] at h
  have slot : SameSlot (turnState s) t := hostTurn_sameSlot h
  refine ⟨⟨slot.skey, slot.snonce, slot.nextBlk, slot.sstate⟩, ?_⟩
  rcases hostTurn_cases h with ⟨off, _, _, rfl⟩ | ⟨off, v, rfl, _, rfl⟩
  · exact ⟨rfl, rfl, fun _ _ => read_sameCore s _⟩
  · exact ⟨memWrite_dout _ off v, memWrite_err _ off v, fun _ isRead => nomatch isRead⟩

/-! ### The flags, ERR and PEND -/

/-- R209: to the flags, ERR and PEND every command is its completion. -/
theorem exec_sameFlags {i : Instr} {s t : State} (h : exec i s = .next t) : ∃ c, SameFlags (complete c s) t := by
  obtain ⟨c, u, e, shape⟩ := exec_shape i s
  cases e.symm.trans h
  refine ⟨c, ?_⟩
  rcases shape with rfl | ⟨_, _, rfl⟩ | ⟨_, _, _, rfl⟩ | ⟨_, _, _, rfl⟩ | ⟨_, _, _, _, _, _, _, rfl⟩ |
    ⟨_, _, _, _, _, _, _, rfl⟩ <;> exact ⟨rfl, rfl, rfl, rfl, rfl⟩

/-- R212: the model's bookkeeping around an event leaves the flags, ERR and PEND alone. -/
theorem SameFlags.of_turnState {s t : State} (h : SameFlags (turnState s) t) : SameFlags s t :=
  ⟨h.busy, h.done, h.wign, h.err, h.pend⟩

/-- R26 to R29, R38: what a step can do to the flags, ERR and PEND: reset, an ignored write, an issue, a
completion, or nothing. -/
theorem step_flags_cases {s t : State} (h : step s = .next t) :
    (nextTurn s = .reset ∧ SameFlags State.reset t) ∨
    (s.busy = true ∧ (∃ off v, nextTurn s = .host (.write .w32 off v)) ∧ SameFlags { s with wign := true } t) ∨
    (s.busy = false ∧ ∃ v, nextTurn s = .host (.write .w32 0x00#8 v) ∧ SameFlags (issue v s) t) ∨
    (nextTurn s = .core ∧ s.busy = true ∧ ∃ c, SameFlags (complete c s) t) ∨
    ((s.busy = true → ∀ off v, nextTurn s ≠ .host (.write .w32 off v)) ∧ SameFlags s t) := by
  rcases step_cases h with ⟨hn, rfl⟩ | ⟨a, hn, host⟩ | ⟨hn, _, rfl⟩ | ⟨hn, hb, _, rfl⟩ | ⟨hn, hb, i, _, run⟩
  · exact .inl ⟨hn, rfl, rfl, rfl, rfl, rfl⟩
  · rcases hostTurn_cases host with ⟨off, rfl, _, rfl⟩ | ⟨off, v, rfl, _, rfl⟩
    · exact .inr (.inr (.inr (.inr ⟨by simp [hn], rfl, rfl, rfl, rfl, rfl⟩)))
    · rcases memWrite_flags_cases (turnState s) off v with ⟨hb, e⟩ | ⟨hb, rfl, e⟩ | ⟨hb, same⟩
      · rw [e]
        exact .inr (.inl ⟨hb, ⟨off, v, hn⟩, rfl, rfl, rfl, rfl, rfl⟩)
      · rw [e]
        exact .inr (.inr (.inl ⟨hb, v, hn, rfl, rfl, rfl, rfl, rfl⟩))
      · exact .inr (.inr (.inr (.inr ⟨fun busy => absurd (busy.symm.trans hb) (by decide), same.of_turnState⟩)))
  · exact .inr (.inr (.inr (.inr ⟨by simp [hn], rfl, rfl, rfl, rfl, rfl⟩)))
  · exact .inr (.inr (.inr (.inl ⟨hn, hb, .illegalCommand, rfl, rfl, rfl, rfl, rfl⟩)))
  · obtain ⟨c, busy, done, wign, err, pend⟩ := exec_sameFlags run
    exact .inr (.inr (.inr (.inl ⟨hn, hb, c, busy, done, wign, err, pend⟩)))

/-- Settles O18, by the five things a step can do to the flags, ERR and PEND. -/
theorem flagsChangeOnlyAtTheirEvents : Obligations.FlagsChangeOnlyAtTheirEvents := by
  intro s t h
  rcases step_flags_cases h with ⟨hn, busy, done, wign, err, pend⟩ |
    ⟨hb, ⟨off, v, hn⟩, busy, done, wign, err, pend⟩ | ⟨hb, v, hn, busy, done, wign, err, pend⟩ |
    ⟨hn, hb, c, busy, done, wign, err, pend⟩ | ⟨quiet, busy, done, wign, err, pend⟩
  · simp [hn, busy, done, wign]
  · simp [hn, hb, busy, done, wign, err, pend]
  · simp [hn, hb, busy, done, wign, err, pend]
  · simp [hn, hb, busy, done, wign, pend]
  · simp +contextual [busy, done, wign, err, pend, quiet]

/-! ### STATUS -/

/-- R52: the read of STATUS. -/
theorem memRead_status (s : State) : memRead s 0x04#8 = statusWord s := memRead_offset s .status

/-- The number of two fields side by side. -/
theorem toNat_append_eq_add {m n : Nat} (x : BitVec m) (y : BitVec n) :
    (x ++ y).toNat = x.toNat * 2 ^ n + y.toNat := by
  rw [BitVec.toNat_append, ← Nat.shiftLeft_add_eq_or_of_lt y.isLt, Nat.shiftLeft_eq]

/-- R24: the number that STATUS reads, by its fields. -/
theorem statusWord_toNat (s : State) : (statusWord s).toNat =
    256 * s.err.code.toNat + 32 * s.wign.toNat + 16 * s.done.toNat + 8 * s.busy.toNat + s.sstate.code.toNat := by
  simp only [statusWord, toNat_append_eq_add, BitVec.toNat_ofBool, BitVec.toNat_ofNat]
  omega

/-- The bits of a word from `start` on, by the word's number. -/
theorem extractLsb'_eq_of_toNat {v : Word} {start len : Nat} {x : BitVec len}
    (h : v.toNat / 2 ^ start % 2 ^ len = x.toNat) : v.extractLsb' start len = x := by
  apply BitVec.eq_of_toNat_eq
  rw [BitVec.extractLsb'_toNat, Nat.shiftRight_eq_div_pow, h]

/-- R24: the fields of STATUS, at their bits, and SSTATE and ERR read back from its number. -/
theorem statusWord_fields (s : State) :
    (statusWord s).extractLsb' 0 3 = s.sstate.code ∧
    (statusWord s).extractLsb' 3 1 = BitVec.ofBool s.busy ∧
    (statusWord s).extractLsb' 4 1 = BitVec.ofBool s.done ∧
    (statusWord s).extractLsb' 5 1 = BitVec.ofBool s.wign ∧
    (statusWord s).extractLsb' 6 2 = 0#2 ∧
    (statusWord s).extractLsb' 8 4 = s.err.code ∧
    (statusWord s).extractLsb' 12 20 = 0#20 ∧
    (statusWord s).toNat % 8 = s.sstate.code.toNat ∧
    (statusWord s).toNat / 256 = s.err.code.toNat := by
  have := s.sstate.code_le
  have := s.busy.toNat_le
  have := s.done.toNat_le
  have := s.wign.toNat_le
  have := s.err.code_le
  have number := statusWord_toNat s
  refine ⟨?_, ?_, ?_, ?_, ?_, ?_, ?_, by omega, by omega⟩ <;> apply extractLsb'_eq_of_toNat <;>
    simp only [number, BitVec.toNat_ofBool, BitVec.toNat_ofNat] <;> omega

/-- R25: the table of SSTATE lists each state's code. -/
theorem code_of_sstateNumbers : ∀ p ∈ sstateNumbers, p.1.code.toNat = p.2 := by decide

/-- R29, R200: the table of ERR lists each completion code's number. -/
theorem code_of_errNumbers : ∀ p ∈ errNumbers, p.1.code.toNat = p.2 := by decide

/-- R28, R53: a write of STATUS is ignored. -/
theorem memWrite_status (s : State) (v : Word) : (s.busy = false → memWrite s 0x04#8 v = s) ∧
    (s.busy = true → memWrite s 0x04#8 v = { s with wign := true }) :=
  ⟨fun hb => memWrite_offset hb .status v, fun hb => by simp [memWrite, hb]⟩

/-- Settles O10: the fields of the status word at their bits, SSTATE and ERR by number, the word at reset, and
the write of STATUS. -/
theorem statusHoldsItsFields : Obligations.StatusHoldsItsFields := by
  refine ⟨fun s => ?_, by decide, memWrite_status⟩
  obtain ⟨sstate, busy, done, wign, low, err, high, sstateNumber, errNumber⟩ := statusWord_fields s
  rw [memRead_status, sstateNumber, errNumber]
  exact ⟨sstate, busy, done, wign, low, err, high, s.sstate.code_le, s.err.code_le,
    fun p hp eq => eq ▸ code_of_sstateNumbers p hp, fun p hp eq => eq ▸ code_of_errNumbers p hp⟩

/-! ### What host reads depend on -/

/-- R31, R35: the exact value is read while BUSY = 0. -/
theorem exactUnlessBusy_idle {s : State} (hb : s.busy = false) (v : Word) : exactUnlessBusy s v = v := by
  simp [exactUnlessBusy, hb]

/-- R22: the DOUT registers stand from 0xC0 on. -/
theorem dout_offset_not_lt (k : Fin 16) : ¬ (RegName.dout k).offset.toNat < 0xC0 := by
  revert k; decide

/-- Settles O32, by the registers: a key reads 0, NEXT_BLK and DOUT are read while idle, and every other
register reads its own fields. -/
theorem hostReadsRevealNoKey : Obligations.HostReadsRevealNoKey := by
  intro s t off nonce blkidx din dout nextBlk sstate busy done wign err fixed
  cases hr : regAt off with
  | none => simp [memRead, hr]
  | some r =>
    rw [offset_of_regAt hr] at fixed ⊢
    rw [memRead_offset, memRead_offset]
    cases r with
    | cmd => rfl
    | status => simp only [readReg, statusWord, sstate, busy, done, wign, err]
    | blkidxLo => simp only [readReg, blkidx]
    | blkidxHi => simp only [readReg, blkidx]
    | key k => rfl
    | nonce k => simp only [readReg, nonce]
    | din k => simp only [readReg, din]
    | nextBlkLo =>
      have idle : s.busy = false := fixed.resolve_right fun other => other.1 rfl
      simp only [readReg, exactUnlessBusy_idle, idle, busy, nextBlk]
    | nextBlkHi =>
      have idle : s.busy = false := fixed.resolve_right fun other => other.2.1 rfl
      simp only [readReg, exactUnlessBusy_idle, idle, busy, nextBlk]
    | dout k =>
      have idle : s.busy = false := fixed.resolve_right fun other => absurd other.2.2 (dout_offset_not_lt k)
      simp only [readReg, exactUnlessBusy_idle, idle, busy, dout]

end Sys2Proof.Machine


/-!
Proofs of the family 20_memory.md: which accesses the port answers (R55), what a read returns (R52) and a write
stores (R53) at every aligned offset, repeated writes (R58), accesses while a command is pending (R61), and what a
command leaves of the register space (R86).
-/
namespace Sys2Proof.Machine

/-! ### The port's contract -/

/-- R55: `off[1:0] = 0`, by the offset's number. -/
theorem aligned_iff {off : Offset} : aligned off = true ↔ off.toNat % 4 = 0 := by
  rw [aligned, beq_iff_eq, ← BitVec.toNat_inj, BitVec.extractLsb'_toNat]
  rfl

/-- R55: an aligned access of 32 bits goes on. -/
theorem checkAccess_aligned {off : Offset} (h : aligned off = true) (t : State) :
    checkAccess .w32 off t = .next t := by simp [checkAccess, h]

/-- R55: a misaligned access of 32 bits is refused. -/
theorem checkAccess_misaligned {off : Offset} (h : off.toNat % 4 ≠ 0) (t : State) :
    checkAccess .w32 off t = .refused .misalignedAccess := by simp [checkAccess, aligned_iff, h]

/-- R55: an access of another width is refused, at every offset. -/
theorem checkAccess_width {w : Width} (h : w ≠ .w32) (off : Offset) (t : State) :
    checkAccess w off t = .refused .accessWidth := by
  cases w with
  | w32 => exact absurd rfl h
  | _ => rfl

/-- Settles O11: a read and a write end in the same check of width and offset. -/
theorem outOfContractAccessIsRefused : Obligations.OutOfContractAccessIsRefused := by
  intro s w off v turn
  have checked : ∃ t, step s = checkAccess w off t := by
    rcases turn with read | write
    · exact ⟨_, step_host read⟩
    · exact ⟨_, step_host write⟩
  obtain ⟨t, e⟩ := checked
  rw [e]
  refine ⟨fun narrow => checkAccess_width narrow off t, ?_⟩
  rintro rfl misaligned
  exact checkAccess_misaligned misaligned t

/-- R52: the step at a read the contract covers. -/
theorem step_hostRead {s : State} {off : Offset} (hn : nextTurn s = .host (.read .w32 off))
    (ha : aligned off = true) :
    step s = .next { turnState s with readData := some (memRead (turnState s) off) } := by
  rw [step_host hn]
  exact checkAccess_aligned ha _

/-- R53: the step at a write the contract covers. -/
theorem step_hostWrite {s : State} {off : Offset} {v : Word} (hn : nextTurn s = .host (.write .w32 off v))
    (ha : aligned off = true) : step s = .next (memWrite (turnState s) off v) := by
  rw [step_host hn]
  exact checkAccess_aligned ha _

/-! ### Offsets by number (R22) -/

@[simp] theorem RegName.toNat_offset_key (k : Fin 8) : (RegName.key k).offset.toNat = 0x20 + 4 * k.val := by
  simp [RegName.offset]; omega

@[simp] theorem RegName.toNat_offset_nonce (k : Fin 3) : (RegName.nonce k).offset.toNat = 0x40 + 4 * k.val := by
  simp [RegName.offset]; omega

@[simp] theorem RegName.toNat_offset_din (k : Fin 16) : (RegName.din k).offset.toNat = 0x80 + 4 * k.val := by
  simp [RegName.offset]; omega

@[simp] theorem RegName.toNat_offset_dout (k : Fin 16) : (RegName.dout k).offset.toNat = 0xC0 + 4 * k.val := by
  simp [RegName.offset]; omega

/-- R52: a read at the number of register `r`'s offset. -/
theorem memRead_of_toNat {off : Offset} {r : RegName} (h : off.toNat = r.offset.toNat) (s : State) :
    memRead s off = readReg s r := by
  rw [BitVec.eq_of_toNat_eq h, memRead_offset]

/-- R53: a write at the number of register `r`'s offset while BUSY = 0. -/
theorem memWrite_of_toNat {s : State} (hb : s.busy = false) {off : Offset} {r : RegName}
    (h : off.toNat = r.offset.toNat) (v : Word) : memWrite s off v = writeReg s v r := by
  rw [BitVec.eq_of_toNat_eq h, memWrite_offset hb]

/-! ### Reads -/

/-- R56: a reserved offset reads 0. -/
theorem memRead_reserved {off : Offset} (h : regAt off = none) (s : State) : memRead s off = 0#32 := by
  simp [memRead, h]

/-- R52, R56: the offsets from 0x18 to 0x3C and from 0x4C to 0x7C are reserved or a key's, and read 0. -/
theorem memRead_keyOrReserved {off : Offset}
    (h : (0x18 ≤ off.toNat ∧ off.toNat ≤ 0x3C) ∨ (0x4C ≤ off.toNat ∧ off.toNat ≤ 0x7C)) (s : State) :
    memRead s off = 0#32 := by
  cases hr : regAt off with
  | none => exact memRead_reserved hr s
  | some r =>
    rw [offset_of_regAt hr] at h ⊢
    rw [memRead_offset]
    cases r with
    | key k => rfl
    | _ => simp [RegName.offset] at h <;> omega

/-- R31, R52: NEXT_BLK_LO reads the low half of NEXT_BLK while BUSY = 0. -/
theorem readReg_nextBlkLo_toNat {s : State} (hb : s.busy = false) :
    (readReg s .nextBlkLo).toNat = s.nextBlk.toNat % 2 ^ 32 := by
  rw [readReg, exactUnlessBusy_idle hb, BitVec.extractLsb'_toNat, Nat.shiftRight_zero]

/-- R31, R52: NEXT_BLK_HI reads the one bit of NEXT_BLK above its low half while BUSY = 0. -/
theorem readReg_nextBlkHi_toNat {s : State} (hb : s.busy = false) :
    (readReg s .nextBlkHi).toNat = s.nextBlk.toNat / 2 ^ 32 := by
  have := s.nextBlk.isLt
  rw [readReg, exactUnlessBusy_idle hb]
  simp only [BitVec.zeroExtend, BitVec.toNat_setWidth, BitVec.extractLsb'_toNat, Nat.shiftRight_eq_div_pow]
  omega

/-- R25, R200: a read of STATUS gives the number of the session state and that of the completion code. -/
theorem statusWord_numbers (s : State) :
    (∀ p ∈ sstateNumbers, s.sstate = p.1 → (statusWord s).toNat % 8 = p.2) ∧
    ∀ p ∈ errNumbers, s.err = p.1 → (statusWord s).toNat / 256 = p.2 := by
  obtain ⟨_, _, _, _, _, _, _, sstate, err⟩ := statusWord_fields s
  rw [sstate, err]
  exact ⟨fun p hp e => e ▸ code_of_sstateNumbers p hp, fun p hp e => e ▸ code_of_errNumbers p hp⟩

/-- Settles O8: the step at a read only stores the register's value into the model's own field; the value is
that of the register at the offset, or 0 where there is none. -/
theorem hostReadReturnsTheRegister : Obligations.HostReadReturnsTheRegister := by
  intro s off hn ha
  have at_reg : ∀ r : RegName, off.toNat = r.offset.toNat →
      memRead (turnState s) off = readReg (turnState s) r := fun r h => memRead_of_toNat h _
  refine ⟨_, memRead (turnState s) off, step_hostRead hn (aligned_iff.2 ha), rfl, read_sameCore s _, rfl,
    ?cmd, ?status, ?statusNumbers, ?blkidxLo, ?blkidxHi, ?nextBlkLo, ?nextBlkHi, ?keys, ?nonce, ?reserved, ?din,
    ?dout⟩
  case cmd => rintro rfl; exact at_reg .cmd rfl
  case status => rintro rfl; exact at_reg .status rfl
  case statusNumbers => rintro rfl; rw [at_reg .status rfl]; exact statusWord_numbers (turnState s)
  case blkidxLo => rintro rfl; exact at_reg .blkidxLo rfl
  case blkidxHi => rintro rfl; exact at_reg .blkidxHi rfl
  case nextBlkLo => rintro rfl hb; rw [at_reg .nextBlkLo rfl]; exact readReg_nextBlkLo_toNat hb
  case nextBlkHi => rintro rfl hb; rw [at_reg .nextBlkHi rfl]; exact readReg_nextBlkHi_toNat hb
  case keys => exact fun low high => memRead_keyOrReserved (.inl ⟨low, high⟩) _
  case nonce => exact fun k h => at_reg (.nonce k) (by simpa using h)
  case reserved => exact fun low high => memRead_keyOrReserved (.inr ⟨low, high⟩) _
  case din => exact fun k h => at_reg (.din k) (by simpa using h)
  case dout =>
    intro k h hb
    rw [at_reg (.dout k) (by simpa using h)]
    exact exactUnlessBusy_idle (s := turnState s) hb _

/-! ### Writes -/

/-- R240: a write while BUSY = 1 is ignored, and only sets WIGN. -/
theorem memWrite_busy {s : State} (hb : s.busy = true) (off : Offset) (v : Word) :
    memWrite s off v = { s with wign := true } := by simp [memWrite, hb]

/-- R56: a write of a reserved offset while BUSY = 0 has no effect. -/
theorem memWrite_reserved {s : State} (hb : s.busy = false) {off : Offset} (h : regAt off = none) (v : Word) :
    memWrite s off v = s := by simp [memWrite, hb, h]

/-- R53, R56: the offsets of STATUS, from 0x10 to 0x1C, from 0x4C to 0x7C and from 0xC0 on are reserved or
those of read-only registers, and a write there has no effect while BUSY = 0. -/
theorem memWrite_readOnlyOrReserved {s : State} (hb : s.busy = false) {off : Offset}
    (h : off = 0x04#8 ∨ (0x10 ≤ off.toNat ∧ off.toNat ≤ 0x1C) ∨ (0x4C ≤ off.toNat ∧ off.toNat ≤ 0x7C) ∨
      0xC0 ≤ off.toNat) (v : Word) : memWrite s off v = s := by
  cases hr : regAt off with
  | none => exact memWrite_reserved hb hr v
  | some r =>
    rw [offset_of_regAt hr, ← BitVec.toNat_inj] at h
    rw [offset_of_regAt hr, memWrite_offset hb]
    cases r with
    | status | nextBlkLo | nextBlkHi | dout k => rfl
    | _ => simp [RegName.offset] at h <;> omega

/-- Settles O9: the step at a write is the write, which a busy core ignores and an idle one makes at the register
of the offset. -/
theorem hostWriteStoresTheRegister : Obligations.HostWriteStoresTheRegister := by
  intro s off v hn ha
  have write : step s = .next (memWrite (turnState s) off v) := step_hostWrite hn (aligned_iff.2 ha)
  refine ⟨fun hb => ?busy, fun hb => ?_⟩
  case busy => rw [write, memWrite_busy (s := turnState s) hb]
  have idle : (turnState s).busy = false := hb
  have at_reg : ∀ r : RegName, off.toNat = r.offset.toNat → step s = .next (writeReg (turnState s) v r) :=
    fun r h => by rw [write, memWrite_of_toNat idle h]
  refine ⟨?cmd, ?blkidxLo, ?blkidxHi, ?key, ?nonce, ?din, ?noEffect⟩
  case cmd => rintro rfl; exact at_reg .cmd rfl
  case blkidxLo =>
    rintro rfl
    exact ⟨_, at_reg .blkidxLo rfl, BitVec.extractLsb'_append_eq_right, BitVec.extractLsb'_append_eq_left⟩
  case blkidxHi =>
    rintro rfl
    exact ⟨_, at_reg .blkidxHi rfl, BitVec.extractLsb'_append_eq_left, BitVec.extractLsb'_append_eq_right⟩
  case key => exact fun k h => at_reg (.key k) (by simpa using h)
  case nonce => exact fun k h => at_reg (.nonce k) (by simpa using h)
  case din => exact fun k h => at_reg (.din k) (by simpa using h)
  case noEffect => exact fun h => by rw [write, memWrite_readOnlyOrReserved idle h]

/-- R58: storing a word into a register other than CMD again changes nothing further. -/
theorem writeReg_writeReg {r : RegName} (h : r ≠ .cmd) (s : State) (v : Word) :
    writeReg (writeReg s v r) v r = writeReg s v r := by
  cases r with
  | cmd => exact absurd rfl h
  | status | nextBlkLo | nextBlkHi | dout k => rfl
  | blkidxLo => simp only [writeReg, BitVec.extractLsb'_append_eq_left]
  | blkidxHi => simp only [writeReg, BitVec.extractLsb'_append_eq_right]
  | key k | nonce k | din k => simp only [writeReg, Vector.set_set]

/-- Settles O12: an ignored write is ignored again, and a register other than CMD is idle after its write and
stores the same word. -/
theorem repeatedWriteChangesNothingFurther : Obligations.RepeatedWriteChangesNothingFurther := by
  intro s off v noIssue
  rcases memWrite_cases s off v with ⟨hb, e⟩ | ⟨hb, r, hr, e⟩ | ⟨_, _, e⟩
  · rw [e]
    exact memWrite_busy (s := { s with wign := true }) hb off v
  · obtain rfl := offset_of_regAt hr
    have notCmd : r ≠ .cmd := by
      rintro rfl
      exact noIssue.elim (· rfl) (by simp [hb])
    rw [e, memWrite_offset ((writeReg_busy notCmd v).trans hb), writeReg_writeReg notCmd]
  · rw [e, e]

/-! ### Accesses while a command is pending -/

/-- R20: the core's record is the same across two spans when it is across each. -/
theorem SameCore.trans {s t u : State} (first : SameCore s t) (second : SameCore t u) : SameCore s u where
  key := second.key.trans first.key
  nonce := second.nonce.trans first.nonce
  blkidx := second.blkidx.trans first.blkidx
  din := second.din.trans first.din
  dout := second.dout.trans first.dout
  skey := second.skey.trans first.skey
  snonce := second.snonce.trans first.snonce
  nextBlk := second.nextBlk.trans first.nextBlk
  sstate := second.sstate.trans first.sstate
  busy := second.busy.trans first.busy
  done := second.done.trans first.done
  wign := second.wign.trans first.wign
  err := second.err.trans first.err
  pend := second.pend.trans first.pend

/-- R28: setting WIGN on both sides keeps the rest of the record the same. -/
theorem SameCore.withWign {s t : State} (h : SameCore s t) (b : Bool) :
    SameCore { s with wign := b } { t with wign := b } := { h with wign := rfl }

/-- R55: the accesses the contract covers are the aligned ones of 32 bits. -/
theorem Access.inContract_cases {a : Access} (h : a.inContract = true) :
    (∃ off, a = .read .w32 off ∧ aligned off = true) ∨ ∃ off v, a = .write .w32 off v ∧ aligned off = true := by
  cases a with
  | read w off =>
    obtain ⟨rfl, ha⟩ : w = .w32 ∧ aligned off = true := by simpa [Access.inContract] using h
    exact .inl ⟨off, rfl, ha⟩
  | write w off v =>
    obtain ⟨rfl, ha⟩ : w = .w32 ∧ aligned off = true := by simpa [Access.inContract] using h
    exact .inr ⟨off, v, rfl, ha⟩

/-- R61, R240: an access while BUSY = 1 goes on and keeps the core's record but for WIGN. -/
theorem step_hostAccess_busy {s : State} {a : Access} (hn : nextTurn s = .host a) (ha : a.inContract = true)
    (hb : s.busy = true) :
    ∃ t, step s = .next t ∧ t.turns = s.turns.tail ∧ SameCore { s with wign := t.wign } t := by
  rcases Access.inContract_cases ha with ⟨off, rfl, slot⟩ | ⟨off, v, rfl, slot⟩
  · exact ⟨_, step_hostRead hn slot, rfl, read_sameCore s _⟩
  · refine ⟨{ turnState s with wign := true }, ?_, rfl, by constructor <;> rfl⟩
    rw [step_hostWrite hn slot, memWrite_busy (s := turnState s) hb]

/-- Settles O19, by induction on the accesses: each goes on, leaves BUSY set and keeps all but WIGN. -/
theorem operandsStayAsIssuedUntilCompletion : Obligations.OperandsStayAsIssuedUntilCompletion := by
  intro as rest
  induction as with
  | nil => exact fun s _ _ turns => ⟨s, rfl, turns, by constructor <;> rfl⟩
  | cons a as ih =>
    intro s covered hb turns
    have hn : nextTurn s = .host a := by simp [nextTurn, turns]
    obtain ⟨u, first, left, same⟩ := step_hostAccess_busy hn (covered a (by simp)) hb
    obtain ⟨t, run, left', same'⟩ := ih u (fun x hx => covered x (by simp [hx])) (same.busy.trans hb)
      (by rw [left, turns]; rfl)
    exact ⟨t, (run_next as.length first).trans run, left', (same.withWign t.wign).trans same'⟩

/-! ### What a command leaves of the register space -/

/-- R86, R202: what every command leaves alone. -/
theorem exec_frame {i : Instr} {s t : State} (h : exec i s = .next t) : CommandFrame s t := by
  obtain ⟨c, u, e, shape⟩ := exec_shape i s
  cases e.symm.trans h
  rcases shape with rfl | ⟨_, _, rfl⟩ | ⟨_, _, _, rfl⟩ | ⟨_, _, _, rfl⟩ | ⟨_, _, _, _, _, _, _, rfl⟩ |
    ⟨_, _, _, _, _, _, _, rfl⟩ <;> constructor <;> rfl

/-- Settles O27, by the registers: below DOUT, all but STATUS and NEXT_BLK read 0 or an element that no command
writes. -/
theorem commandsLeaveTheOtherRegisterSpace : Obligations.CommandsLeaveTheOtherRegisterSpace := by
  intro i s t h off notStatus notNextBlkLo notNextBlkHi below
  have frame : CommandFrame s t := exec_frame h
  cases hr : regAt off with
  | none => rw [memRead_reserved hr, memRead_reserved hr]
  | some r =>
    obtain rfl := offset_of_regAt hr
    rw [memRead_offset, memRead_offset]
    cases r with
    | cmd | key k => rfl
    | status => exact absurd rfl notStatus
    | nextBlkLo => exact absurd rfl notNextBlkLo
    | nextBlkHi => exact absurd rfl notNextBlkHi
    | blkidxLo | blkidxHi => simp only [readReg, frame.blkidx]
    | nonce k => simp only [readReg, frame.nonce]
    | din k => simp only [readReg, frame.din]
    | dout k => exact absurd below (dout_offset_not_lt k)

end Sys2Proof.Machine


/-!
Proofs of the family 30_encoding.md: the decoder and the encoder invert each other (R89), the opcode map agrees with
the decoder (R87, R88), the worked encodings (R90), what the host's loads leave and what its readout returns (R98).
-/
namespace Sys2Proof

/-! ### A word is its fields -/

/-- R82: format N's two fields make up the word. -/
theorem mbzN_append_opcField (v : Word) : mbzN v ++ opcField v = v :=
  (BitVec.extractLsb'_append_extractLsb'_eq_extractLsb' rfl).trans BitVec.extractLsb'_eq_self

/-- R84: LEN and format X's must-be-zero bits make up `v[31:8]`. -/
theorem mbzX_append_field15to8 (v : Word) : mbzX v ++ field15to8 v = mbzN v :=
  BitVec.extractLsb'_append_extractLsb'_eq_extractLsb' rfl

/-- R83: NLEN and format S's must-be-zero bits make up `v[31:16]`. -/
theorem mbzS_append_field23to16 (v : Word) : mbzS v ++ field23to16 v = mbzX v :=
  BitVec.extractLsb'_append_extractLsb'_eq_extractLsb' rfl

/-- R82: a legal word of format N is its opcode below zeros. -/
theorem eq_of_formatN {v : Word} {b : Byte} (mbz : mbzN v = 0#24) (opc : opcField v = b) : 0#24 ++ b = v := by
  rw [← mbz, ← opc, mbzN_append_opcField]

/-- R84: a legal word of format X is its opcode and LEN below zeros. -/
theorem eq_of_formatX {v : Word} {b : Byte} (mbz : mbzX v = 0#16) (opc : opcField v = b) :
    0#16 ++ field15to8 v ++ b = v := by
  rw [← mbz, ← opc, mbzX_append_field15to8, mbzN_append_opcField]

/-- R83: a legal word of format S is its opcode, KLEN and NLEN below zeros. -/
theorem eq_of_formatS {v : Word} {b : Byte} (mbz : mbzS v = 0#8) (opc : opcField v = b) :
    0#8 ++ field23to16 v ++ field15to8 v ++ b = v := by
  rw [← mbz, ← opc, mbzS_append_field23to16, mbzX_append_field15to8, mbzN_append_opcField]

/-! ### Decoding and encoding (R89) -/

/-- R89: a word decodes to the command its fields are those of, and to no other. -/
theorem decodeWord_ok_iff {v : Word} {i : Instr} : decodeWord v = .ok i ↔
    (opcField v = 0x00#8 ∧ mbzN v = 0#24 ∧ i = .nop) ∨
    (opcField v = 0x01#8 ∧ mbzS v = 0#8 ∧
      i = .createSession (field15to8 v).toNat (field23to16 v).toNat) ∨
    (opcField v = 0x02#8 ∧ mbzN v = 0#24 ∧ i = .genBlock) ∨
    (opcField v = 0x03#8 ∧ mbzX v = 0#16 ∧ i = .xorChunk (field15to8 v).toNat) ∨
    (opcField v = 0x04#8 ∧ mbzN v = 0#24 ∧ i = .close) := by
  refine ⟨decodeWord_ok, ?_⟩
  rintro (⟨opc, mbz, rfl⟩ | ⟨opc, mbz, rfl⟩ | ⟨opc, mbz, rfl⟩ | ⟨opc, mbz, rfl⟩ | ⟨opc, mbz, rfl⟩) <;>
    simp [decodeWord, ifZero, opc, mbz]

/-- R89: a well-formed command is what its encoding decodes to. -/
theorem decodeWord_encode {i : Instr} (wf : i.WellFormed) : decodeWord (encode i) = .ok i := by
  rw [decodeWord_ok_iff]
  cases i with
  | nop => exact .inl (by decide)
  | createSession klen nlen =>
    obtain ⟨hk, hn⟩ : klen < 256 ∧ nlen < 256 := by simpa [Instr.WellFormed, Instr.wellFormed] using wf
    obtain ⟨opc, k, n, mbz⟩ := fields_encode_createSession klen nlen
    refine .inr (.inl ⟨opc, mbz, ?_⟩)
    rw [k, n, BitVec.toNat_ofNat, BitVec.toNat_ofNat, Nat.mod_eq_of_lt hk, Nat.mod_eq_of_lt hn]
  | genBlock => exact .inr (.inr (.inl (by decide)))
  | xorChunk len =>
    have hl : len < 256 := by simpa [Instr.WellFormed, Instr.wellFormed] using wf
    obtain ⟨opc, l, mbz⟩ := fields_encode_xorChunk len
    refine .inr (.inr (.inr (.inl ⟨opc, mbz, ?_⟩)))
    rw [l, BitVec.toNat_ofNat, Nat.mod_eq_of_lt hl]
  | close => exact .inr (.inr (.inr (.inr (by decide))))

/-- R54, R80: a command's four bytes decode as its word. -/
theorem decodeBytes_encodeBytes (i : Instr) : decodeBytes (encodeBytes i) = decodeWord (encode i) :=
  congrArg decodeWord (Machine.le32_wordByte (encode i))

/-- R89: the encoding of what a word decodes to is the word. -/
theorem encode_of_decodeWord {v : Word} {i : Instr} (h : decodeWord v = .ok i) : encode i = v := by
  rcases decodeWord_ok h with
    ⟨opc, mbz, rfl⟩ | ⟨opc, mbz, rfl⟩ | ⟨opc, mbz, rfl⟩ | ⟨opc, mbz, rfl⟩ | ⟨opc, mbz, rfl⟩
  · exact eq_of_formatN mbz opc
  · simpa [encode] using eq_of_formatS mbz opc
  · exact eq_of_formatN mbz opc
  · simpa [encode] using eq_of_formatX mbz opc
  · exact eq_of_formatN mbz opc

/-- Settles O1: the fields of an encoding are the command's, and its bytes are those of one word. -/
theorem decodeOfEncodeIsTheCommand : Obligations.DecodeOfEncodeIsTheCommand := by
  intro i wf
  exact ⟨decodeWord_encode wf, (decodeBytes_encodeBytes i).trans (decodeWord_encode wf)⟩

/-- Settles O2: a legal word has no bits beside the fields its command is read from. -/
theorem encodeOfDecodeIsTheWord : Obligations.EncodeOfDecodeIsTheWord := by
  intro v i h
  exact ⟨encode_of_decodeWord h, decodeWord_wellFormed h⟩

/-- Settles O4: each worked word is the encoding of a well-formed command. -/
theorem workedEncodingsDecode : Obligations.WorkedEncodingsDecode := by
  unfold Obligations.WorkedEncodingsDecode
  decide

/-! ### The opcode map (R87) -/

/-- R87: where the mask is all ones, a word that selects a row agrees with the row's match. -/
theorem extractLsb'_of_selects {r : OpcodeRow} {v : Word} (h : r.selects v = true) {start len : Nat}
    (ones : r.mask.extractLsb' start len = BitVec.allOnes len) :
    v.extractLsb' start len = r.pattern.extractLsb' start len := by
  rw [← eq_of_beq h, BitVec.extractLsb'_and, ones, BitVec.and_allOnes]

/-- R87, R88: a word that selects a row decodes to a command of the row: the row's mask covers OPC and the
must-be-zero bits. -/
theorem decodeWord_of_selects {v : Word} {r : OpcodeRow} (hr : r ∈ opcodeMap) (h : r.selects v = true) :
    ∃ i, decodeWord v = .ok i ∧ i.mnemonic = r.mnemonic := by
  have field {start len : Nat} := extractLsb'_of_selects h (start := start) (len := len)
  simp only [opcodeMap, List.mem_cons, List.not_mem_nil, or_false] at hr
  rcases hr with rfl | rfl | rfl | rfl | rfl
  · exact ⟨.nop, decodeWord_ok_iff.2 (.inl ⟨field rfl, field rfl, rfl⟩), rfl⟩
  · exact ⟨_, decodeWord_ok_iff.2 (.inr (.inl ⟨field rfl, field rfl, rfl⟩)), rfl⟩
  · exact ⟨.genBlock, decodeWord_ok_iff.2 (.inr (.inr (.inl ⟨field rfl, field rfl, rfl⟩))), rfl⟩
  · exact ⟨_, decodeWord_ok_iff.2 (.inr (.inr (.inr (.inl ⟨field rfl, field rfl, rfl⟩)))), rfl⟩
  · exact ⟨.close, decodeWord_ok_iff.2 (.inr (.inr (.inr (.inr ⟨field rfl, field rfl, rfl⟩)))), rfl⟩

/-- R87: no mnemonic stands in two rows. -/
theorem opcodeMap_mnemonic_inj :
    ∀ r ∈ opcodeMap, ∀ r' ∈ opcodeMap, r.mnemonic = r'.mnemonic → r = r' := by decide

/-- R87: every encoded command selects the row of its mnemonic. -/
theorem encode_selects_row (i : Instr) : Laws.EncodesItsRow.Statement i := by
  cases i with
  | nop => exact Laws.EncodesItsRow.nop
  | createSession klen nlen => exact Laws.EncodesItsRow.createSession klen nlen
  | genBlock => exact Laws.EncodesItsRow.genBlock
  | xorChunk len => exact Laws.EncodesItsRow.xorChunk len
  | close => exact Laws.EncodesItsRow.close

/-- R87: a word that decodes to a command selects the row of the command's mnemonic. -/
theorem selects_of_decodeWord {v : Word} {i : Instr} (h : decodeWord v = .ok i) {r : OpcodeRow}
    (hr : r ∈ opcodeMap) (name : i.mnemonic = r.mnemonic) : r.selects v = true := by
  obtain ⟨q, hq, qname, sel⟩ := encode_selects_row i (decodeWord_wellFormed h)
  obtain rfl : q = r := opcodeMap_mnemonic_inj q hq r hr (qname.trans name)
  rwa [encode_of_decodeWord h] at sel

/-- Settles O3: a selected row carries the mnemonic of the word's one decoding. -/
theorem opcodeMapRowsDecideTheCommand : Obligations.OpcodeMapRowsDecideTheCommand := by
  refine ⟨fun v r hr => ⟨decodeWord_of_selects hr, fun ⟨i, h, name⟩ => selects_of_decodeWord h hr name⟩, ?_⟩
  intro v r r' hr hr' sel sel'
  obtain ⟨i, h, name⟩ := decodeWord_of_selects hr sel
  obtain ⟨i', h', name'⟩ := decodeWord_of_selects hr' sel'
  obtain rfl : i = i' := Except.ok.inj (h.symm.trans h')
  exact opcodeMap_mnemonic_inj r hr r' hr' (name.symm.trans name')

end Sys2Proof

namespace Sys2Proof.Machine

/-! ### The host's loads (R98) -/

/-- Byte `j` of a byte string, for any `j` within it. -/
theorem toList_getD {n j : Nat} (B : Vector Byte n) (h : j < n) : B.toList.getD j 0#8 = B[j] := by simp [h]

/-- R11: word `i` of packed words. -/
theorem packWords_getElem {n i : Nat} (f : Nat → Byte) (h : i < n) :
    (packWords n f)[i] = le32 (f (4 * i)) (f (4 * i + 1)) (f (4 * i + 2)) (f (4 * i + 3)) := by
  simp [packWords]

/-- R32, R110: the key words of a 32-byte key, one by one. -/
theorem keyOfBytes_getElem (K : Vector Byte 32) (w : Fin 8) :
    (keyOfBytes K)[w] = le32 K[4 * w.val] K[4 * w.val + 1] K[4 * w.val + 2] K[4 * w.val + 3] := by
  have word := packWords_getElem (fun j => K.toList.getD j 0#8) w.isLt
  rwa [toList_getD, toList_getD, toList_getD, toList_getD] at word

/-- R33, R110: the nonce words of a 12-byte nonce, one by one. -/
theorem nonceOfBytes_getElem (N : Vector Byte 12) (w : Fin 3) :
    (nonceOfBytes N)[w] = le32 N[4 * w.val] N[4 * w.val + 1] N[4 * w.val + 2] N[4 * w.val + 3] := by
  have word := packWords_getElem (fun j => N.toList.getD j 0#8) w.isLt
  rwa [toList_getD, toList_getD, toList_getD, toList_getD] at word

/-! ### The host's readout (R98) -/

/-- R98: four bytes for each word. -/
theorem bytesOfWords_length (ws : List Word) : (bytesOfWords ws).length = 4 * ws.length := by
  simp [bytesOfWords, le32Bytes, Nat.mul_comm]

/-- R98: `rddout` returns 64 bytes, whether the core is idle or busy. -/
theorem readDout_length (s : State) : (readDout s).1.length = 64 := by
  rw [readDout, bytesOfWords_length, hostReads_length]
  rfl

/-- R98, R35: while BUSY = 0, byte `j` of what `rddout` returns is byte `j` of DOUT. -/
theorem readDout_getElem? {s : State} (hb : s.busy = false) (j : Fin 64) :
    (readDout s).1[j.val]? = some (byteAt s.dout j) := by
  rw [readDout_eq hb, bytesOfBlock_getElem? s.dout j.isLt]

/-- R52: a host read changes nothing of the core's record. -/
theorem hostRead_sameCore (r : RegName) (s : State) (l : List Turn) :
    SameCore s { (hostRead r s).2 with turns := l } := by constructor <;> rfl

/-- R98: `rddout` changes nothing of the core's record. -/
theorem readDout_sameCore (s : State) : SameCore s (readDout s).2 := by
  obtain ⟨l, d, e⟩ := readDout_leave s
  rw [e]
  constructor <;> rfl

/-- Settles O45: each load fills its register file word by word and touches no other field, and the readout is
DOUT byte by byte. -/
theorem hostLoadsFillTheirRegisters : Obligations.HostLoadsFillTheirRegisters := by
  intro s hb
  refine ⟨fun K => ⟨_, hostWrites_ldkey hb K, keyOfBytes_getElem K⟩,
    fun N => ⟨_, hostWrites_ldnonce hb N, nonceOfBytes_getElem N⟩, hostWrites_ldidx hb,
    fun B _ => ⟨_, hostWrites_lddin hb B, fun j => byteAt_packWords _ j.isLt⟩,
    readDout_length s, readDout_getElem? hb, readDout_sameCore s⟩

/-! ### A program's readout (R95, R98) -/

/-- What a program's reads of the registers `rs` into the variables from `t` on leave of the system `y`: `z`, in
which the variables hold the words of separate reads, and those below `t` are as they were. -/
structure ReadsInto (t : Nat) (rs : List RegName) (y z : System) : Prop where
  core : SameCore y.core z.core
  running : z.host.status = .running
  words : z.host.words t rs.length = some (hostReads rs y.core).1
  below : ∀ u, u < t → z.host.vars.lookup u = y.host.vars.lookup u

/-- R95: before the first read nothing has changed. -/
theorem ReadsInto.refl (t : Nat) {y : System} (running : y.host.status = .running) : ReadsInto t [] y y where
  core := by constructor <;> rfl
  running := running
  words := rfl
  below := fun _ _ => rfl

/-- R95: one more read in front: it binds `t`, which the later reads leave alone, and what they return does not
depend on the events the first one found listed. -/
theorem ReadsInto.cons {t : Nat} {r : RegName} {rs : List RegName} {y z : System}
    (h : ReadsInto (t + 1) rs
      ⟨{ (hostRead r y.core).2 with turns := [] }, y.host.bind t (hostRead r y.core).2⟩ z) :
    ReadsInto t (r :: rs) y z where
  core := (hostRead_sameCore r y.core []).trans h.core
  running := h.running
  words := by
    have first : z.host.vars.lookup t = some (hostRead r y.core).1 :=
      (h.below t t.lt_succ_self).trans List.lookup_cons_self
    have later : z.host.words (t + 1) rs.length = some (hostReads rs (hostRead r y.core).2).1 := by
      rw [h.words, hostReads_turns]
    simp only [List.length_cons, HostAgent.words, first, later, hostReads_cons]
  below := fun u hu => by
    have other : (u == t) = false := by simpa using hu.ne
    rw [h.below u (hu.trans t.lt_succ_self), HostAgent.bind, List.lookup_cons, other]

/-- R95: a running program that stands at reads makes them in as many host steps. -/
theorem System.run_rdStmts {t : Nat} {rs : List RegName} {y : System} {rest : List Stmt}
    (running : y.host.status = .running) (here : y.host.prog.drop y.host.pos = rdStmts t rs ++ rest) :
    ∃ z, System.run (List.replicate rs.length .host) y = .next z ∧ ReadsInto t rs y z := by
  induction rs generalizing t y with
  | nil => exact ⟨y, rfl, .refl t running⟩
  | cons r rs ih =>
    have stmt : y.host.prog[y.host.pos]? = some (.rd r t) := by rw [← List.head?_drop, here]; rfl
    have next : y.host.prog.drop (y.host.pos + 1) = rdStmts (t + 1) rs ++ rest := by
      rw [← List.tail_drop, here]; rfl
    obtain ⟨z, run, reads⟩ := ih (y := ⟨_, y.host.bind t (hostRead r y.core).2⟩) running next
    refine ⟨z, ?_, reads.cons⟩
    rw [List.length_cons, List.replicate_succ, System.run, System.step_rd running stmt]
    exact run

/-- R98: the statements of a program whose first line is `rddout`. -/
theorem expandProgram_rddout (t : Nat) (ls : List Line) :
    ∃ rest, expandProgram (.rddout t :: ls) = rdStmts t doutRegs ++ rest := ⟨_, rfl⟩

/-- Settles O50: the program's reads are those of `readDout`, one by one. -/
theorem readoutIsFormedFromSixteenReads : Obligations.ReadoutIsFormedFromSixteenReads := by
  intro t ls s wf
  obtain ⟨rest, program⟩ := expandProgram_rddout t ls
  have running : (System.start (.rddout t :: ls) s).host.status = .running := by
    simp [System.start, Line.wellFormed, wf]
  obtain ⟨y, run, reads⟩ := System.run_rdStmts running program
  refine ⟨y, run, ?_, readDout_length s, reads.core, reads.running, readDout_getElem?⟩
  rw [HostAgent.readout, reads.words]
  rfl

end Sys2Proof.Machine


/-!
Proofs of the family 40_permutation.md: the reference schedule and the other schedules the spec names compute
permute20 (R107, R113), quarter-rounds on disjoint groups commute (R104, R105), the layout of a block (R102, R108,
R109), and the worked examples (R101, R103, R106).
-/
namespace Sys2Proof.Machine

/-! ### The reference schedule (R113) -/

/-- R106, R113: from an even round index two steps are a double round. -/
theorem laneStep_twice {a : Lane} (below : a.rnd.val < 20) (even : a.rnd.val % 2 = 0) :
    (laneStep (laneStep a)).x = doubleRound a.x ∧ (laneStep (laneStep a)).rnd.val = a.rnd.val + 2 := by
  have rnd : (laneStep a).rnd.val = a.rnd.val + 1 := laneStep_rnd below
  have below' : (laneStep a).rnd.val < 20 := by omega
  constructor
  · rw [laneStep_x_odd below' (by omega), laneStep_x_even below even, doubleRound]
  · rw [laneStep_rnd below', rnd]

/-- R113: no number of steps changes the initial state block. -/
theorem laneStep_iterate_s (a : Lane) (n : Nat) : (laneStep^[n] a).s = a.s := by
  induction n with
  | zero => rfl
  | succ n ih => rw [Function.iterate_succ_apply', laneStep_s, ih]

/-- R107, R113: from round index 0, `2 n` steps are `n` double rounds. -/
theorem laneStep_iterate_two_mul {a : Lane} (start : a.rnd.val = 0) {n : Nat} (hn : n ≤ 10) :
    (laneStep^[2 * n] a).x = doubleRound^[n] a.x ∧ (laneStep^[2 * n] a).rnd.val = 2 * n := by
  induction n with
  | zero => exact ⟨rfl, start⟩
  | succ n ih =>
    obtain ⟨x, rnd⟩ := ih (by omega)
    obtain ⟨x', rnd'⟩ := laneStep_twice (a := laneStep^[2 * n] a) (by omega) (by omega)
    rw [Nat.mul_succ, Function.iterate_succ_apply', Function.iterate_succ_apply',
      Function.iterate_succ_apply']
    exact ⟨by rw [x', x], by rw [rnd', rnd]⟩

/-- R107, R113: twenty steps from round index 0 leave permute20 of the working copy, and the index at 20. -/
theorem laneStep_iterate_twenty {a : Lane} (start : a.rnd.val = 0) :
    (laneStep^[20] a).x = permute20 a.x ∧ (laneStep^[20] a).rnd.val = 20 := by
  simpa only [permute20_eq, Nat.reduceMul] using laneStep_iterate_two_mul start (n := 10) le_rfl

/-- Settles O41: twenty steps are ten double rounds, and the initial state block is still there for the
feed-forward. -/
theorem referenceScheduleComputesTheBlock : Obligations.ReferenceScheduleComputesTheBlock := by
  refine ⟨fun k n ctr => ?_, fun S => (laneStep_iterate_twenty rfl).1⟩
  obtain ⟨x, rnd⟩ := laneStep_iterate_twenty (a := laneStart k n ctr) rfl
  refine ⟨?_, rnd⟩
  rw [laneFinish, x, laneStep_iterate_s, chachaBlockWords_eq, laneStart]

/-! ### The named schedules (R113) -/

/-- R113: a group of steps repeated `n` times is the group's function iterated `n` times. -/
theorem DatapathSchedule.run_flatten_replicate (σ : DatapathSchedule) (n : Nat) :
    DatapathSchedule.run (List.replicate n σ).flatten = σ.run^[n] := by
  induction n with
  | zero => rfl
  | succ n ih =>
    funext S
    rw [List.replicate_succ, List.flatten_cons, run_append, ih, Function.iterate_succ_apply]

/-- R107, R113: ten times over, any steps that make up a double round are an allowed schedule. -/
theorem allowedSchedule_of_run_eq_doubleRound {σ : DatapathSchedule} (h : σ.run = doubleRound) :
    AllowedSchedule (DatapathSchedule.run (List.replicate 10 σ).flatten) := by
  intro S
  rw [DatapathSchedule.run_flatten_replicate, h, permute20_eq]

/-- R113: the schedule of double rounds is the one-step group `[doubleRound]` ten times over. -/
theorem doubleRoundSchedule_eq : doubleRoundSchedule = (List.replicate 10 [doubleRound]).flatten := by
  rw [List.flatten_replicate_singleton, doubleRoundSchedule]

/-- Settles O49: each of the first three repeats, ten times, steps that make up a double round. -/
theorem namedSchedulesAreAllowed : Obligations.NamedSchedulesAreAllowed := by
  refine ⟨⟨?rounds, rfl⟩, ⟨?quarterRounds, rfl⟩, ⟨?doubleRounds, rfl⟩, ⟨fun _ => rfl, rfl⟩⟩
  case rounds => exact allowedSchedule_of_run_eq_doubleRound (σ := [columnRound, diagonalRound]) rfl
  case quarterRounds => exact allowedSchedule_of_run_eq_doubleRound rfl
  case doubleRounds =>
    rw [doubleRoundSchedule_eq]
    exact allowedSchedule_of_run_eq_doubleRound rfl

/-! ### Quarter-rounds on disjoint groups (R104, R105) -/

/-- R104, R105: a quarter-round on a state is four writes of what its four words give. -/
theorem quarterRoundAt_eq (i j k l : Fin 16) (x : Block) :
    quarterRoundAt i j k l x =
      (((x.set i (quarterRound x[i] x[j] x[k] x[l]).1).set j (quarterRound x[i] x[j] x[k] x[l]).2.1).set k
        (quarterRound x[i] x[j] x[k] x[l]).2.2.1).set l (quarterRound x[i] x[j] x[k] x[l]).2.2.2 := rfl

/-- R103: a word outside the group is left alone. -/
theorem quarterRoundAt_getElem_of_notMem {i j k l m : Fin 16} (x : Block) (outside : m ∉ [i, j, k, l]) :
    (quarterRoundAt i j k l x)[m] = x[m] := by
  simp only [List.mem_cons, List.not_mem_nil, or_false, not_or] at outside
  obtain ⟨hi, hj, hk, hl⟩ := outside
  exact quarterRoundAt_other x hi hj hk hl

/-- R103: a word outside the group is not read either, so a write of it before the quarter-round may as well
come after. -/
theorem quarterRoundAt_set_of_notMem {i j k l m : Fin 16} (x : Block) (w : Word) (outside : m ∉ [i, j, k, l]) :
    quarterRoundAt i j k l (x.set m w) = (quarterRoundAt i j k l x).set m w := by
  simp only [List.mem_cons, List.not_mem_nil, or_false, not_or, Fin.ext_iff] at outside
  obtain ⟨hi, hj, hk, hl⟩ := outside
  simp only [quarterRoundAt_eq, Fin.getElem_fin, Vector.getElem_set_ne _ _ hi, Vector.getElem_set_ne _ _ hj,
    Vector.getElem_set_ne _ _ hk, Vector.getElem_set_ne _ _ hl]
  rw [Vector.set_comm _ _ hi, Vector.set_comm _ _ hj, Vector.set_comm _ _ hk, Vector.set_comm _ _ hl]

/-- Settles O42: the writes of one quarter-round pass through the other, which leaves alone the words that
the first one reads. -/
theorem disjointQuarterRoundsCommute : Obligations.DisjointQuarterRoundsCommute := by
  intro i j k l i' j' k' l' x distinct
  have outside : ∀ m ∈ [i', j', k', l'], m ∉ [i, j, k, l] := fun m hm hm' =>
    List.disjoint_of_nodup_append (l₁ := [i, j, k, l]) distinct hm' hm
  simp only [List.forall_mem_cons] at outside
  obtain ⟨hi, hj, hk, hl, -⟩ := outside
  rw [quarterRoundAt_eq i' j' k' l' x, quarterRoundAt_eq i' j' k' l' (quarterRoundAt i j k l x),
    quarterRoundAt_set_of_notMem _ _ hl, quarterRoundAt_set_of_notMem _ _ hk,
    quarterRoundAt_set_of_notMem _ _ hj, quarterRoundAt_set_of_notMem _ _ hi,
    quarterRoundAt_getElem_of_notMem x hi, quarterRoundAt_getElem_of_notMem x hj,
    quarterRoundAt_getElem_of_notMem x hk, quarterRoundAt_getElem_of_notMem x hl]

/-! ### The layout of a block (R102, R108, R109) -/

/-- R102: words 0 to 3 of the initial state are SIGMA. -/
theorem initState_sigma (k : KeyWords) (ctr : Word) (n : NonceWords) (w : Fin 4) :
    (initState k ctr n)[w.val] = sigma[w] := by
  fin_cases w <;> rfl

/-- R102: words 4 to 11 of the initial state are the key. -/
theorem initState_key (k : KeyWords) (ctr : Word) (n : NonceWords) (w : Fin 8) :
    (initState k ctr n)[4 + w.val] = k[w] := by
  fin_cases w <;> rfl

/-- R102: words 13 to 15 of the initial state are the nonce. -/
theorem initState_nonce (k : KeyWords) (ctr : Word) (n : NonceWords) (w : Fin 3) :
    (initState k ctr n)[13 + w.val] = n[w] := by
  fin_cases w <;> rfl

/-- R108: word `w` of a block. -/
theorem chachaBlockWords_getElem (k : KeyWords) (n : NonceWords) (ctr : Word) (w : Fin 16) :
    (chachaBlockWords k n ctr)[w] = (permute20 (initState k ctr n))[w] + (initState k ctr n)[w] := by
  rw [chachaBlockWords_eq]
  exact feedForward_getElem _ _ w.isLt

/-- R109: byte `j` of a register file, as bits of its word. -/
theorem byteAt_eq_extractLsb' {n : Nat} (v : Vector Word n) {j : Nat} (h : j / 4 < n) :
    byteAt v j = v[j / 4].extractLsb' (8 * (j % 4)) 8 := by
  rw [byteAt, dif_pos h, wordByte]

/-- Settles O43: the words by R102 and R108, the bytes by R109. -/
theorem blockIsFeedForwardSerialized : Obligations.BlockIsFeedForwardSerialized := fun k n ctr =>
  ⟨initState_sigma k ctr n, initState_key k ctr n, rfl, initState_nonce k ctr n,
    chachaBlockWords_getElem k n ctr,
    fun j => (chachaBlock_getElem k n ctr j.isLt).trans (byteAt_eq_extractLsb' _ (by omega))⟩

/-! ### The worked examples (R101, R103, R106) -/

/-- R103: the quarter-round of zeros is zeros. -/
theorem quarterRound_zero : quarterRound 0#32 0#32 0#32 0#32 = (0#32, 0#32, 0#32, 0#32) := by decide

/-- R106: a quarter-round on any four words of the zero state leaves it as it is. -/
theorem quarterRoundAt_zero (i j k l : Fin 16) :
    quarterRoundAt i j k l (Vector.replicate 16 0#32) = Vector.replicate 16 0#32 := by
  simp only [quarterRoundAt_eq, Fin.getElem_fin, Vector.getElem_replicate, quarterRound_zero,
    Vector.set_replicate_self]

/-- Settles O44: the examples are computed; the zero state is fixed by each of the eight quarter-rounds. -/
theorem permutationMeetsItsWorkedExamples : Obligations.PermutationMeetsItsWorkedExamples := by
  refine ⟨by decide, by decide, by decide, ?_⟩
  simp only [doubleRound, columnRound, diagonalRound, quarterRoundAt_zero]

end Sys2Proof.Machine


/-!
Proofs of the family 41_sequencer.md: a valid block index fits in 32 bits, so its counter word, which is word 12 of
the initial state, is the index itself (R130).
-/
namespace Sys2Proof.Machine

/-- R102: word 12 of the initial state is the counter word. -/
theorem initState_counter (k : KeyWords) (ctr : Word) (n : NonceWords) : (initState k ctr n)[12] = ctr := rfl

/-- R130: the counter word of a valid index is the index. -/
theorem counterWord_toNat {i : Nat} (hi : validIndex i = true) : (counterWord i).toNat = i := by
  rw [counterWord, BitVec.toNat_ofNat, Nat.mod_eq_of_lt ((validIndex_iff i).1 hi)]

/-- Settles O35: a valid index is below 2^32, so its counter word loses no bit of it, and word 12 is that word. -/
theorem counterWordIsTheIndex : Obligations.CounterWordIsTheIndex := by
  intro i k n
  refine ⟨(validIndex_iff i).trans (Nat.lt_iff_le_pred (by decide)), fun hi => ?_⟩
  have index : (counterWord i).toNat = i := counterWord_toNat hi
  exact ⟨chachaSource_apply k n i, index, by rw [initState_counter, index]⟩

end Sys2Proof.Machine


/-!
Proofs of the family 42_keystream.md: GEN_BLOCK gives the block of its three operands, or CounterOverflow (R140),
whatever else the state holds (R141), and at index `i` the same 64 keystream bytes as the XOR_CHUNK that consumes
block `i` (R143).
-/
namespace Sys2Proof

/-- R82, R88 (b): an assigned opcode of format N with a bit of [31:8] set is illegal. -/
theorem decodeWord_formatN_mustBeZero {v : Word} (opc : v.toNat % 256 ∈ [0x00, 0x02, 0x04]) (high : 256 ≤ v.toNat) :
    decodeWord v = .error .mustBeZero := by
  have mbz : mbzN v ≠ 0#24 := fun zero => absurd ((mbzN_eq_zero v).1 zero) (Nat.not_lt.2 high)
  simp only [List.mem_cons, List.not_mem_nil, or_false] at opc
  rcases opc with nop | genBlock | close
  · simp [decodeWord, (opcField_eq_iff v 0x00#8).2 nop, ifZero, mbz]
  · simp [decodeWord, (opcField_eq_iff v 0x02#8).2 genBlock, ifZero, mbz]
  · simp [decodeWord, (opcField_eq_iff v 0x04#8).2 close, ifZero, mbz]

end Sys2Proof

namespace Sys2Proof.Machine

/-! ### GEN_BLOCK (R140, R141) -/

/-- R140: GEN_BLOCK at a valid index. -/
theorem exec_genBlock_ok {s : State} (valid : s.blkidx.toNat < 2 ^ 32) :
    exec .genBlock s = .next (complete .ok (generateBlock s)) := by
  rcases exec_genBlock_cases s with ⟨_, e⟩ | ⟨beyond, _⟩
  · exact e
  · omega

/-- R140: GEN_BLOCK beyond the last valid index. -/
theorem exec_genBlock_overflow {s : State} (beyond : 2 ^ 32 ≤ s.blkidx.toNat) :
    exec .genBlock s = .next (complete .counterOverflow s) := by
  rcases exec_genBlock_cases s with ⟨valid, _⟩ | ⟨_, e⟩
  · omega
  · exact e

/-- R130: the counter word of an index held in a register is the register's low word. -/
theorem counterWord_eq_extractLsb' {n : Nat} (x : BitVec n) : counterWord x.toNat = x.extractLsb' 0 32 := by
  simp [counterWord, BitVec.extractLsb']

/-- Settles O23: the two outcomes of GEN_BLOCK, and format N's must-be-zero bits. -/
theorem genBlockComputesTheIndexedBlock : Obligations.GenBlockComputesTheIndexedBlock := by
  refine ⟨fun s valid => ?_, fun s beyond => ?_, rfl, fun v opc => decodeWord_formatN_mustBeZero (by simp [opc])⟩
  · have run := exec_genBlock_ok valid
    refine ⟨_, run, ⟨rfl, rfl, rfl⟩, ?_, ⟨rfl, rfl, rfl, rfl⟩, exec_frame run⟩
    rw [complete_dout, generateBlock_dout, counterWord_eq_extractLsb']
  · have run := exec_genBlock_overflow beyond
    exact ⟨_, run, ⟨rfl, rfl, rfl⟩, rfl, ⟨rfl, rfl, rfl, rfl⟩, exec_frame run⟩

/-- Settles O33: both complete with OK, and DOUT is a function of the three operands. -/
theorem genBlockDependsOnlyOnItsOperands : Obligations.GenBlockDependsOnlyOnItsOperands := by
  intro s t key nonce blkidx valid
  refine ⟨_, _, exec_genBlock_ok valid, exec_genBlock_ok (blkidx ▸ valid), ?_, rfl⟩
  simp only [complete_dout, generateBlock_dout, key, nonce, blkidx]

/-! ### The session keystream (R142, R143) -/

/-- R142: byte `64i + j` of the keystream is byte `j` of block `i`. -/
theorem keystreamByte_block (block : BlockSource) (i : Nat) (j : Fin 64) :
    keystreamByte block (64 * i + j.val) = (block i)[j] := by
  have quotient : (64 * i + j.val) / 64 = i := by omega
  have remainder : (64 * i + j.val) % 64 = j.val := by omega
  rw [keystreamByte, quotient, remainder]
  exact blockBytes_getD _ j.isLt

/-- R135, R142: byte `64i + j` of the keystream of a key and a nonce, in the words of block `i`. -/
theorem keystreamByte_chachaSource (k : KeyWords) (n : NonceWords) (i : Nat) (j : Fin 64) :
    keystreamByte (chachaSource k n) (64 * i + j.val) = byteAt (chachaBlockWords k n (counterWord i)) j.val := by
  rw [keystreamByte_block, chachaSource_apply]
  exact chachaBlock_getElem k n (counterWord i) j.isLt

/-- R150: XOR_CHUNK of at least one byte in a live session at a valid index. -/
theorem exec_xorChunk_consumes {len : Nat} {s : State} (pos : 1 ≤ len) (fits : len ≤ 64)
    (live : s.sstate = .created ∨ s.sstate = .streaming) (valid : s.nextBlk.toNat < 2 ^ 32) :
    exec (.xorChunk len) s =
      .next (complete .ok (consumeBlock (chachaSource s.skey s.snonce s.nextBlk.toNat) len s)) := by
  rcases exec_xorChunk_cases len s with ⟨long, _⟩ | ⟨_, dead, _⟩ | ⟨_, dead, _⟩ | ⟨empty, _, _⟩ |
    ⟨_, _, _, _, run⟩ | ⟨_, _, _, beyond, _⟩
  · omega
  · rcases live with h | h <;> simp [h] at dead
  · rcases live with h | h <;> simp [h] at dead
  · omega
  · exact run
  · omega

/-- R143, R151: a full chunk of zeros takes on the block it is mixed with. -/
theorem consumeBlock_dout_of_zero {s : State} (zero : s.din = zeroBlock) (O : Block) :
    (consumeBlock (serialize O) 64 s).dout = O :=
  eq_of_byteAt fun j h => by
    rw [byteAt_consumeBlock _ _ _ h, xorLane, if_pos h, zero, byteAt_zeroBlock, BitVec.zero_xor,
      blockBytes_getD _ h, serialize_getElem _ h]

/-- Settles O34: DOUT is in both the words of block `i`, the XOR with zeros being the block itself. -/
theorem genBlockAgreesWithTheSession : Obligations.GenBlockAgreesWithTheSession := by
  intro s t skey snonce index valid live zeros
  have zero : t.din = zeroBlock := Vector.ext fun k hk => by simpa [zeroBlock] using zeros ⟨k, hk⟩
  have chunk := exec_xorChunk_consumes (len := 64) (by decide) (by decide) live (index ▸ valid)
  refine ⟨_, _, exec_genBlock_ok valid, chunk, ?_, fun j => ?_⟩
  · rw [skey, snonce, index]
    exact consumeBlock_dout_of_zero zero _
  · exact (keystreamByte_chachaSource s.key s.nonce s.blkidx.toNat j).symm

end Sys2Proof.Machine


/-!
Proofs of the family 43_xor_engine.md: XOR_CHUNK mixes a chunk with the next keystream block (R150 to R154);
stream_xor is the byte-wise XOR with the keystream (R156), so it undoes itself (R159) and leaks the XOR of two messages
under one keystream (R163); the host's chunk loop computes it (R157), also for a fresh session's decryption (R159).
-/
namespace Sys2Proof

/-- R84, R88 (b): XOR_CHUNK's opcode with a bit of [31:16] set is illegal. -/
theorem decodeWord_formatX_mustBeZero {v : Word} (opc : v.toNat % 256 = 0x03) (high : 2 ^ 16 ≤ v.toNat) :
    decodeWord v = .error .mustBeZero := by
  have mbz : mbzX v ≠ 0#16 := fun zero => absurd ((mbzX_eq_zero v).1 zero) (Nat.not_lt.2 high)
  simp [decodeWord, (opcField_eq_iff v 0x03#8).2 opc, ifZero, mbz]

end Sys2Proof

namespace Sys2Proof.Machine

/-! ### XOR_CHUNK (R150, R151, R154) -/

/-- R150: the empty chunk in a live session. -/
theorem exec_xorChunk_empty {s : State} (live : s.sstate = .created ∨ s.sstate = .streaming) :
    exec (.xorChunk 0) s = .next (complete .ok s) := by
  have cases := exec_xorChunk_cases 0 s
  rcases live with e | e <;> simpa [e, SessionState.live] using cases

/-- R150: a chunk longer than a block, in every session state. -/
theorem exec_xorChunk_long {len : Nat} (s : State) (long : 64 < len) :
    exec (.xorChunk len) s = .next (complete .invalidLength s) := by
  have cases := exec_xorChunk_cases len s
  have notZero : len ≠ 0 := by omega
  simpa [long, Nat.not_le.2 long, notZero] using cases

/-- R150: XOR_CHUNK without a session. -/
theorem exec_xorChunk_noSession {len : Nat} {s : State} (fits : len ≤ 64)
    (dead : s.sstate = .noSession ∨ s.sstate = .closed) :
    exec (.xorChunk len) s = .next (complete .illegalState s) := by
  have cases := exec_xorChunk_cases len s
  rcases dead with e | e <;> simpa [e, SessionState.live, fits, Nat.not_lt.2 fits] using cases

/-- R150: XOR_CHUNK in an exhausted session. -/
theorem exec_xorChunk_exhausted {len : Nat} {s : State} (fits : len ≤ 64) (e : s.sstate = .exhausted) :
    exec (.xorChunk len) s = .next (complete .counterOverflow s) := by
  have cases := exec_xorChunk_cases len s
  simpa [e, SessionState.live, fits, Nat.not_lt.2 fits] using cases

/-- R150: XOR_CHUNK of at least one byte in a live session at the counter limit. -/
theorem exec_xorChunk_limit {len : Nat} {s : State} (pos : 1 ≤ len) (fits : len ≤ 64)
    (live : s.sstate = .created ∨ s.sstate = .streaming) (limit : 2 ^ 32 ≤ s.nextBlk.toNat) :
    exec (.xorChunk len) s = .next (complete .counterOverflow { s with sstate := .exhausted }) := by
  have cases := exec_xorChunk_cases len s
  have notZero : len ≠ 0 := by omega
  rcases live with e | e <;>
    simpa [-Nat.reducePow, e, SessionState.live, pos, fits, limit, Nat.not_lt.2 fits, Nat.not_lt.2 limit, notZero]
      using cases

/-- R209: what a command leaves that only completes. -/
theorem exec_onlyCompletes {i : Instr} {c : ErrCode} {s : State} (run : exec i s = .next (complete c s)) :
    ∃ t, exec i s = .next t ∧ Completed c t ∧ SameSlot s t ∧ t.dout = s.dout ∧ CommandFrame s t :=
  ⟨_, run, ⟨rfl, rfl, rfl⟩, ⟨rfl, rfl, rfl, rfl⟩, rfl, exec_frame run⟩

/-- R150, R151: each byte of DOUT after a consumed block, with the block by R109's function. -/
theorem byteAt_consumeBlock_chachaSource (s : State) (len : Nat) (j : Fin 64) :
    byteAt (consumeBlock (chachaSource s.skey s.snonce s.nextBlk.toNat) len s).dout j =
      if j.val < len then
        byteAt s.din j ^^^ (chachaBlock s.skey s.snonce (s.nextBlk.extractLsb' 0 32))[j]
      else 0x00#8 := by
  rw [byteAt_consumeBlock _ _ _ j.isLt, xorLane, blockBytes_getD _ j.isLt, chachaSource_apply,
    counterWord_eq_extractLsb']
  rfl

/-- Settles O24: the six outcomes of XOR_CHUNK, and format X's fields. -/
theorem xorChunkMixesOneBlock : Obligations.XorChunkMixesOneBlock := by
  refine ⟨fun s len pos fits live valid => ?_, fun s live => exec_onlyCompletes (exec_xorChunk_empty live),
    fun s len long => exec_onlyCompletes (exec_xorChunk_long s long),
    fun s len fits dead => exec_onlyCompletes (exec_xorChunk_noSession fits dead),
    fun s len fits exhausted => exec_onlyCompletes (exec_xorChunk_exhausted fits exhausted),
    fun s len pos fits live limit => ?_, fun len => ?_, fun v => decodeWord_formatX_mustBeZero⟩
  · have run := exec_xorChunk_consumes pos fits live valid
    exact ⟨_, run, ⟨rfl, rfl, rfl⟩, byteAt_consumeBlock_chachaSource s len, toNat_nextBlk_add_one valid, rfl, rfl, rfl,
      exec_frame run⟩
  · have run := exec_xorChunk_limit pos fits live limit
    exact ⟨_, run, ⟨rfl, rfl, rfl⟩, rfl, rfl, rfl, rfl, rfl, exec_frame run⟩
  · rw [encode, BitVec.ofNat_toNat, BitVec.setWidth_eq]

/-! ### Messages and their chunks (R156) -/

/-- R156: ⌈N/64⌉ is the only number with `N ≤ 64m < N + 64`. -/
theorem eq_chunkCount_iff {n m : Nat} : m = chunkCount n ↔ n ≤ 64 * m ∧ 64 * m < n + 64 := by
  unfold chunkCount
  omega

/-- R156: the chunks of a message have room for it. -/
theorem le_chunkCount (n : Nat) : n ≤ 64 * chunkCount n := (eq_chunkCount_iff.1 rfl).1

/-- No message, no chunk, whatever the bound on their number. -/
@[simp] theorem chunksUpTo_nil (fuel : Nat) : chunksUpTo fuel [] = [] := by cases fuel <;> rfl

/-- R156: a chunk is taken from a message that is not empty. -/
theorem chunksUpTo_succ (fuel : Nat) {P : List Byte} (h : P ≠ []) :
    chunksUpTo (fuel + 1) P = P.take 64 :: chunksUpTo fuel (P.drop 64) := by
  obtain ⟨b, bs, rfl⟩ := List.exists_cons_of_ne_nil h
  rfl

/-- R156: every chunk holds 1 to 64 bytes. -/
theorem length_of_mem_chunksUpTo {fuel : Nat} {P c : List Byte} (h : c ∈ chunksUpTo fuel P) :
    1 ≤ c.length ∧ c.length ≤ 64 := by
  induction fuel generalizing P with
  | zero => cases h
  | succ fuel ih =>
    by_cases empty : P = []
    · simp [empty] at h
    · rw [chunksUpTo_succ fuel empty, List.mem_cons] at h
      rcases h with rfl | rest
      · have pos : 0 < P.length := List.length_pos_iff.2 empty
        rw [List.length_take]
        omega
      · exact ih rest

/-- R156: with enough fuel there are ⌈N/64⌉ chunks. -/
theorem chunksUpTo_length {fuel : Nat} {P : List Byte} (enough : P.length ≤ 64 * fuel) :
    (chunksUpTo fuel P).length = chunkCount P.length := by
  induction fuel generalizing P with
  | zero =>
    obtain rfl : P = [] := by simpa using enough
    rfl
  | succ fuel ih =>
    by_cases empty : P = []
    · simp [empty, chunkCount]
    · have pos : 0 < P.length := List.length_pos_iff.2 empty
      rw [chunksUpTo_succ fuel empty, List.length_cons, ih (by rw [List.length_drop]; omega), List.length_drop,
        chunkCount, chunkCount]
      omega

/-- R156: the first chunks of a message. -/
theorem chunksUpTo_take (fuel k : Nat) (P : List Byte) :
    (chunksUpTo fuel P).take k = chunksUpTo (min k fuel) (P.take (64 * k)) := by
  induction fuel generalizing k P with
  | zero => simp [chunksUpTo]
  | succ fuel ih =>
    cases k with
    | zero => simp
    | succ k =>
      by_cases empty : P = []
      · simp [empty]
      · have room : min 64 (64 * (k + 1)) = 64 := by omega
        have part_ne : P.take (64 * (k + 1)) ≠ [] := by simp [empty]
        rw [chunksUpTo_succ fuel empty, List.take_succ_cons, ih, Nat.add_min_add_right, chunksUpTo_succ _ part_ne,
          List.take_take, room, List.drop_take]
        rfl

/-- R156: the chunks of a message's first `k` blocks are its first `k` chunks. -/
theorem chunksOf_take {k : Nat} {P : List Byte} (h : 64 * k ≤ P.length) :
    chunksOf (P.take (64 * k)) = (chunksOf P).take k := by
  have count : k = chunkCount (P.take (64 * k)).length :=
    eq_chunkCount_iff.2 (by rw [List.length_take]; omega)
  have le : min k (chunkCount P.length) = k := Nat.min_eq_left (by unfold chunkCount; omega)
  rw [chunksOf, chunksOf, chunksUpTo_take, ← count, le]

/-! ### stream_xor and the keystream (R156, R159, R163) -/

/-- R142: 64 bytes for each block. -/
theorem keystreamFrom_length (block : BlockSource) (i m : Nat) : (keystreamFrom block i m).length = 64 * m := by
  induction m generalizing i with
  | zero => rfl
  | succ m ih =>
    rw [keystreamFrom, List.length_append, ih, Vector.length_toList]
    omega

/-- R142: byte `j` of the keystream from block `i` on is byte `64i + j` of the keystream. -/
theorem keystreamFrom_getElem? (block : BlockSource) (i : Nat) {m j : Nat} (h : j < 64 * m) :
    (keystreamFrom block i m)[j]? = some (keystreamByte block (64 * i + j)) := by
  induction m generalizing i j with
  | zero => omega
  | succ m ih =>
    rw [keystreamFrom]
    by_cases first : j < 64
    · rw [List.getElem?_append_left (by simpa using first), keystreamByte_block block i ⟨j, first⟩]
      simp [first]
    · rw [List.getElem?_append_right (by simpa using first), Vector.length_toList, ih _ (by omega)]
      congr 2
      omega

/-- Bytes against two stretches of a keystream, one after the other. -/
theorem xorBytes_append_right (P ks ls : List Byte) :
    xorBytes P (ks ++ ls) = xorBytes (P.take ks.length) ks ++ xorBytes (P.drop ks.length) ls := by
  induction ks generalizing P with
  | nil => simp [xorBytes]
  | cons k ks ih =>
    cases P with
    | nil => simp [xorBytes]
    | cons p P => simpa [xorBytes] using ih P

/-- A keystream that covers the message takes no byte off it. -/
theorem xorBytes_length {P ks : List Byte} (covers : P.length ≤ ks.length) : (xorBytes P ks).length = P.length := by
  rw [xorBytes, List.length_zipWith, Nat.min_eq_left covers]

/-- R159: the same keystream twice cancels. -/
theorem xorBytes_xorBytes {P ks : List Byte} (covers : P.length ≤ ks.length) : xorBytes (xorBytes P ks) ks = P := by
  refine List.ext_getElem ?_ fun j _ _ => ?_
  · rw [xorBytes_length (by rwa [xorBytes_length covers]), xorBytes_length covers]
  · simp [xorBytes]

/-- R163: what two bytes are both mixed with cancels in their XOR. -/
theorem byte_xor_xor_xor_cancel (a b k : Byte) : (a ^^^ k) ^^^ (b ^^^ k) = a ^^^ b := by
  rw [BitVec.xor_comm b k, BitVec.xor_assoc, ← BitVec.xor_assoc k, BitVec.xor_self, BitVec.zero_xor]

/-- R163: the keystream cancels in the XOR of two outputs. -/
theorem xorBytes_leak {P Q ks : List Byte} (covers : P.length ≤ ks.length) (same : P.length = Q.length) :
    xorBytes (xorBytes P ks) (xorBytes Q ks) = xorBytes P Q := by
  have covers' : Q.length ≤ ks.length := same ▸ covers
  refine List.ext_getElem ?_ fun j _ _ => ?_
  · simp only [xorBytes, List.length_zipWith]
    omega
  · simp only [xorBytes, List.getElem_zipWith, byte_xor_xor_xor_cancel]

/-- R156: the loop over the chunks is one XOR with the blocks in a row. -/
theorem xorChunks_chunksUpTo (block : BlockSource) (i : Nat) {fuel : Nat} {P : List Byte}
    (enough : P.length ≤ 64 * fuel) :
    xorChunks block i (chunksUpTo fuel P) = xorBytes P (keystreamFrom block i fuel) := by
  induction fuel generalizing i P with
  | zero =>
    obtain rfl : P = [] := by simpa using enough
    rfl
  | succ fuel ih =>
    by_cases empty : P = []
    · simp [empty, xorChunks, xorBytes]
    · rw [chunksUpTo_succ fuel empty, xorChunks, ih _ (by rw [List.length_drop]; omega), keystreamFrom,
        xorBytes_append_right, Vector.length_toList]

/-- R156: the XOR of the chunks of a message is that of the message. -/
theorem xorChunks_chunksOf (block : BlockSource) (i : Nat) (P : List Byte) :
    xorChunks block i (chunksOf P) = xorBytes P (keystreamFrom block i (chunkCount P.length)) :=
  xorChunks_chunksUpTo block i (le_chunkCount P.length)

/-- R142, R156: the blocks of a message's chunks cover the message. -/
theorem keystreamFrom_covers (block : BlockSource) (i : Nat) (P : List Byte) :
    P.length ≤ (keystreamFrom block i (chunkCount P.length)).length := by
  rw [keystreamFrom_length]
  exact le_chunkCount P.length

/-- R156: when stream_xor answers, and what. -/
theorem streamXor_eq_ok_iff {block : BlockSource} {i : Nat} {P C : List Byte} :
    streamXor block i P = .ok C ↔
      ¬(0 < chunkCount P.length ∧ i + chunkCount P.length - 1 > 2 ^ 32 - 1) ∧
        xorBytes P (keystreamFrom block i (chunkCount P.length)) = C := by
  rw [streamXor, xorChunks_chunksOf]
  split <;> simp_all

/-- Settles O36: the number of chunks is `m`, and byte `j` of the keystream from block `i` on is byte `64i + j` of the
whole. -/
theorem streamXorIsKeystreamXor : Obligations.StreamXorIsKeystreamXor := by
  intro block i P
  refine ⟨fun m room tight => ?_, fun C h => ?_⟩
  · obtain rfl : m = chunkCount P.length := eq_chunkCount_iff.2 ⟨room, tight⟩
    exact ⟨fun beyond => if_pos beyond, fun within => ⟨_, if_neg within⟩⟩
  · obtain ⟨_, rfl⟩ := streamXor_eq_ok_iff.1 h
    refine ⟨xorBytes_length (keystreamFrom_covers block i P), fun j hj => ?_⟩
    rw [xorBytes, List.getElem?_zipWith, keystreamFrom_getElem? block i (hj.trans_le (le_chunkCount _))]
    simp [hj]

/-- Settles O37: the output has the message's length, so the same stretch of keystream undoes it. -/
theorem streamXorIsItsOwnInverse : Obligations.StreamXorIsItsOwnInverse := by
  intro block i P C h
  obtain ⟨within, rfl⟩ := streamXor_eq_ok_iff.1 h
  have covers := keystreamFrom_covers block i P
  rw [streamXor_eq_ok_iff, xorBytes_length covers]
  exact ⟨within, xorBytes_xorBytes covers⟩

/-- Settles O38: messages of one length meet the same stretch of keystream, which cancels. -/
theorem keystreamReuseLeaksThePlaintextXor : Obligations.KeystreamReuseLeaksThePlaintextXor := by
  intro block i P₁ P₂ C₁ C₂ same h₁ h₂
  obtain ⟨_, rfl⟩ := streamXor_eq_ok_iff.1 h₁
  obtain ⟨_, rfl⟩ := streamXor_eq_ok_iff.1 h₂
  rw [← same]
  exact xorBytes_leak (keystreamFrom_covers block i P₁) same

/-! ### The host's chunk loop (R157) -/

/-- R36, R37, R162: an idle core with a live session that draws its blocks from `block` and consumes block `i` next. -/
structure LiveAt (block : BlockSource) (i : Nat) (s : State) : Prop where
  idle : s.busy = false
  live : s.sstate = .created ∨ s.sstate = .streaming
  source : chachaSource s.skey s.snonce = block
  index : s.nextBlk.toNat = i

/-- R97, R98: the core as the XOR_CHUNK of the chunk `c` finds it: the chunk in DIN, the command issued. -/
def stageChunk (c : List Byte) (s : State) : State :=
  issue (encode (.xorChunk c.length)) { s with din := blockOfBytes c }

/-- R97, R98: the call for one chunk is XOR_CHUNK on the staged chunk. -/
theorem runCommand_xorChunk {c : List Byte} {s : State} (idle : s.busy = false) (fits : c.length ≤ 64) :
    runCommand (.xorChunk c.length) (hostWrites (lddinWrites c) s) = exec (.xorChunk c.length) (stageChunk c s) := by
  have wf : (Instr.xorChunk c.length).WellFormed := decide_eq_true (by omega)
  rw [hostWrites_lddin idle]
  exact runCommand_eq idle (decodeWord_encode wf)

/-- R157: a chunk whose command completes with OK: its bytes are read out, and the loop goes on. -/
theorem sendChunks_cons_ok {c : List Byte} {cs : List (List Byte)} {s t : State}
    (run : runCommand (.xorChunk c.length) (hostWrites (lddinWrites c) s) = .next t) (ok : t.err = .ok) :
    sendChunks (c :: cs) s = (sendChunks cs (readDout t).2).map fun r =>
      { r with out := (readDout t).1.take c.length ++ r.out } := by
  rw [sendChunks_cons, run]
  simp only [ok, if_true]
  cases sendChunks cs (readDout t).2 <;> rfl

/-- R157: the loop stops at a chunk whose command completes with an error. -/
theorem sendChunks_cons_error {c : List Byte} {cs : List (List Byte)} {s t : State}
    (run : runCommand (.xorChunk c.length) (hostWrites (lddinWrites c) s) = .next t) (error : t.err ≠ .ok) :
    sendChunks (c :: cs) s = some ⟨[], t.err, t⟩ := by
  rw [sendChunks_cons, run]
  simp only [error, if_false]

/-- R98, R151: the first bytes of DOUT after the XOR_CHUNK of a chunk are the chunk's XOR with its block. -/
theorem take_dout_consumeBlock {B : List Byte} (fits : B.length ≤ 64) (ks : BlockBytes) (s : State) :
    (bytesOfBlock (consumeBlock ks B.length (stageChunk B s)).dout).take B.length = xorBytes B ks.toList := by
  refine List.ext_getElem ?_ fun j inside _ => ?_
  · rw [List.length_take, bytesOfBlock_length, Nat.min_eq_left fits, xorBytes_length (by simpa using fits)]
  · rw [List.length_take, bytesOfBlock_length] at inside
    have input : byteAt (blockOfBytes B) j = B.getD j 0#8 := byteAt_packWords _ (by omega)
    have output : (bytesOfBlock (consumeBlock ks B.length (stageChunk B s)).dout)[j]? =
        some (B.getD j 0#8 ^^^ ks.toList.getD j 0#8) := by
      rw [bytesOfBlock_getElem? _ (by omega), byteAt_consumeBlock _ _ _ (by omega), xorLane, if_pos (by omega), ← input]
      rfl
    rw [List.getElem_take, (List.getElem?_eq_some_iff.1 output).2]
    simp [xorBytes, show j < B.length by omega, show j < 64 by omega]

/-- R20, R162: a live session stays one in a state with the same record. -/
theorem LiveAt.of_sameCore {block : BlockSource} {i : Nat} {s t : State} (h : LiveAt block i s) (same : SameCore s t) :
    LiveAt block i t where
  idle := same.busy.trans h.idle
  live := same.sstate.symm ▸ h.live
  source := by rw [same.skey, same.snonce, h.source]
  index := by rw [same.nextBlk, h.index]

/-- R133, R150: a consumed block leaves the core idle and the session at the next block of the same source. -/
theorem LiveAt.next {block : BlockSource} {i : Nat} {s : State} (h : LiveAt block i s) (valid : i < 2 ^ 32)
    (ks : BlockBytes) (c : List Byte) :
    LiveAt block (i + 1) (complete .ok (consumeBlock ks c.length (stageChunk c s))) where
  idle := rfl
  live := .inr rfl
  source := h.source
  index := by
    obtain ⟨_, _, _, rfl⟩ := h
    exact toNat_nextBlk_add_one valid

/-- R157: a chunk below the counter limit: the loop's output grows by the chunk's XOR with the next block, and one block
is consumed. -/
theorem sendChunks_cons_of_valid {block : BlockSource} {i : Nat} {s : State} {c : List Byte} (cs : List (List Byte))
    (h : LiveAt block i s) (pos : 1 ≤ c.length) (fits : c.length ≤ 64) (valid : i < 2 ^ 32) :
    ∃ t, LiveAt block (i + 1) t ∧ sendChunks (c :: cs) s = (sendChunks cs t).map fun r =>
      { r with out := xorBytes c (block i).toList ++ r.out } := by
  have index : (stageChunk c s).nextBlk.toNat = i := h.index
  have source : chachaSource (stageChunk c s).skey (stageChunk c s).snonce = block := h.source
  have run := (runCommand_xorChunk h.idle fits).trans
    (exec_xorChunk_consumes pos fits h.live (index.trans_lt valid))
  rw [source, index] at run
  have loop := sendChunks_cons_ok (cs := cs) run rfl
  rw [readDout_eq (complete_busy _ _), complete_dout, take_dout_consumeBlock fits] at loop
  exact ⟨_, (h.next valid _ c).of_sameCore (readDout_sameCore _), loop⟩

/-- R157: a chunk at the counter limit: the loop stops with CounterOverflow and the session is exhausted. -/
theorem sendChunks_cons_of_limit {block : BlockSource} {i : Nat} {s : State} {c : List Byte} (cs : List (List Byte))
    (h : LiveAt block i s) (pos : 1 ≤ c.length) (fits : c.length ≤ 64) (limit : 2 ^ 32 ≤ i) :
    ∃ t, t.sstate = .exhausted ∧ sendChunks (c :: cs) s = some ⟨[], .counterOverflow, t⟩ := by
  obtain ⟨idle, live, rfl, rfl⟩ := h
  have run := (runCommand_xorChunk idle fits).trans
    (exec_xorChunk_limit (s := stageChunk c s) pos fits live limit)
  exact ⟨_, rfl, sendChunks_cons_error run (by simp)⟩

/-- R157: chunks that all meet valid indices. -/
theorem sendChunks_of_le {block : BlockSource} {i : Nat} {s : State} {cs : List (List Byte)} (h : LiveAt block i s)
    (sizes : ∀ c ∈ cs, 1 ≤ c.length ∧ c.length ≤ 64) (room : i + cs.length ≤ 2 ^ 32) :
    ∃ t, LiveAt block (i + cs.length) t ∧ sendChunks cs s = some ⟨xorChunks block i cs, .ok, t⟩ := by
  induction cs generalizing i s with
  | nil => exact ⟨s, h, rfl⟩
  | cons c cs ih =>
    obtain ⟨⟨pos, fits⟩, sizes⟩ := List.forall_mem_cons.1 sizes
    rw [List.length_cons, Nat.add_comm cs.length, ← Nat.add_assoc] at room ⊢
    obtain ⟨t, ht, loop⟩ := sendChunks_cons_of_valid cs h pos fits (by omega)
    obtain ⟨u, hu, rest⟩ := ih ht sizes room
    exact ⟨u, hu, by rw [loop, rest, xorChunks]; rfl⟩

/-- R157: chunks that meet the counter limit: those before it are delivered. -/
theorem sendChunks_of_lt {block : BlockSource} {i : Nat} {s : State} {cs : List (List Byte)} (h : LiveAt block i s)
    (sizes : ∀ c ∈ cs, 1 ≤ c.length ∧ c.length ≤ 64) (below : i ≤ 2 ^ 32) (beyond : 2 ^ 32 < i + cs.length) :
    ∃ t, t.sstate = .exhausted ∧
      sendChunks cs s = some ⟨xorChunks block i (cs.take (2 ^ 32 - i)), .counterOverflow, t⟩ := by
  induction cs generalizing i s with
  | nil => exact absurd beyond (Nat.not_lt.2 below)
  | cons c cs ih =>
    obtain ⟨⟨pos, fits⟩, sizes⟩ := List.forall_mem_cons.1 sizes
    by_cases valid : i < 2 ^ 32
    · obtain ⟨t, ht, loop⟩ := sendChunks_cons_of_valid cs h pos fits valid
      obtain ⟨u, hu, rest⟩ := ih ht sizes valid (by rw [List.length_cons] at beyond; omega)
      have first : 2 ^ 32 - i = 2 ^ 32 - (i + 1) + 1 := by omega
      exact ⟨u, hu, by rw [loop, rest, first, List.take_succ_cons, xorChunks]; rfl⟩
    · obtain ⟨t, exhausted, loop⟩ := sendChunks_cons_of_limit cs h pos fits (Nat.not_lt.1 valid)
      rw [Nat.sub_eq_zero_of_le (Nat.not_lt.1 valid)]
      exact ⟨t, exhausted, loop⟩

/-- R156: a message's chunks, ⌈N/64⌉ in number. -/
theorem chunksOf_length (P : List Byte) : (chunksOf P).length = chunkCount P.length :=
  chunksUpTo_length (le_chunkCount P.length)

/-- R156, R157: stream_xor of a message whose chunks all meet valid indices. -/
theorem streamXor_of_le {block : BlockSource} {i : Nat} {P : List Byte} (room : i + chunkCount P.length ≤ 2 ^ 32) :
    streamXor block i P = .ok (xorChunks block i (chunksOf P)) :=
  if_neg (by omega)

/-- R157: a message whose chunks all meet valid indices. -/
theorem sendMessage_of_le {block : BlockSource} {i : Nat} {s : State} {P : List Byte} (h : LiveAt block i s)
    (room : i + chunkCount P.length ≤ 2 ^ 32) :
    ∃ t, LiveAt block (i + chunkCount P.length) t ∧
      sendMessage P s = some ⟨xorChunks block i (chunksOf P), .ok, t⟩ := by
  rw [← chunksOf_length] at room ⊢
  exact sendChunks_of_le h (fun _ => length_of_mem_chunksUpTo) room

/-- R157: a message whose chunks meet the counter limit: stream_xor of the part before it is delivered. -/
theorem sendMessage_of_lt {block : BlockSource} {i : Nat} {s : State} {P : List Byte} (h : LiveAt block i s)
    (below : i ≤ 2 ^ 32) (beyond : 2 ^ 32 < i + chunkCount P.length) :
    ∃ t out, t.sstate = .exhausted ∧ sendMessage P s = some ⟨out, .counterOverflow, t⟩ ∧
      streamXor block i (P.take (64 * (2 ^ 32 - i))) = .ok out := by
  have part : 64 * (2 ^ 32 - i) ≤ P.length := by
    unfold chunkCount at beyond
    omega
  have room : i + chunkCount (P.take (64 * (2 ^ 32 - i))).length ≤ 2 ^ 32 := by
    rw [← chunksOf_length, chunksOf_take part, List.length_take]
    omega
  rw [← chunksOf_length] at beyond
  obtain ⟨t, exhausted, loop⟩ := sendChunks_of_lt h (fun _ => length_of_mem_chunksUpTo) below beyond
  exact ⟨t, _, exhausted, loop, (streamXor_of_le room).trans (by rw [chunksOf_take part]; rfl)⟩

/-- Settles O39, by the two ways the chunk loop ends. -/
theorem chunkLoopComputesStreamXor : Obligations.ChunkLoopComputesStreamXor := by
  intro s P idle live below
  have h : LiveAt (chachaSource s.skey s.snonce) s.nextBlk.toNat s := ⟨idle, live, rfl, rfl⟩
  refine ⟨fun room => ?_, fun beyond => ?_⟩
  · obtain ⟨t, ht, loop⟩ := sendMessage_of_le h room
    exact ⟨_, loop, rfl, streamXor_of_le room, ht.index⟩
  · obtain ⟨t, out, exhausted, loop, output⟩ := sendMessage_of_lt h below beyond
    exact ⟨_, loop, rfl, exhausted, output⟩

/-! ### Decryption in a fresh session (R159, R180) -/

/-- R180: the call create_session leaves an idle core with a session of that key and nonce at block 0. -/
theorem hostCreateSession_liveAt (K : Vector Byte 32) (N : Vector Byte 12) {s : State} (idle : s.busy = false) :
    ∃ t, hostCreateSession K N s = .next t ∧ Completed .ok t ∧
      LiveAt (chachaSource (keyOfBytes K) (nonceOfBytes N)) 0 t := by
  have decodes : decodeWord (encode (.createSession 32 12)) = .ok (.createSession 32 12) :=
    decodeWord_encode (by decide)
  have loaded : hostCreateSession K N s = runCommand (.createSession 32 12)
      { s with key := keyOfBytes K, nonce := nonceOfBytes N } := by
    rw [hostCreateSession, hostWrites_ldkey idle, hostWrites_ldnonce (s := { s with key := keyOfBytes K }) idle]
    rfl
  have run := runCommand_eq (s := { s with key := keyOfBytes K, nonce := nonceOfBytes N }) idle decodes
  exact ⟨_, loaded.trans (run.trans (exec_createSession_ok _)), ⟨rfl, rfl, rfl⟩, ⟨rfl, .inl rfl, rfl, rfl⟩⟩

/-- Settles O40: both messages are XORed with the same keystream, from block 0 of the same source. -/
theorem decryptionInAFreshSessionRestoresTheMessage : Obligations.DecryptionInAFreshSessionRestoresTheMessage := by
  intro K N s P idle count
  have room : 0 + chunkCount P.length ≤ 2 ^ 32 := (Nat.zero_add _).trans_le count
  obtain ⟨t, create, completed, ht⟩ := hostCreateSession_liveAt K N idle
  obtain ⟨t', ht', encrypt⟩ := sendMessage_of_le ht room
  obtain ⟨u, create', completed', hu⟩ := hostCreateSession_liveAt K N ht'.idle
  have covers := keystreamFrom_covers (chachaSource (keyOfBytes K) (nonceOfBytes N)) 0 P
  have length : (xorChunks (chachaSource (keyOfBytes K) (nonceOfBytes N)) 0 (chunksOf P)).length = P.length := by
    rw [xorChunks_chunksOf, xorBytes_length covers]
  obtain ⟨u', _, decrypt⟩ := sendMessage_of_le hu (length ▸ room)
  refine ⟨_, _, _, _, create, completed, encrypt, rfl, length, create', completed', decrypt, rfl, ?_⟩
  rw [xorChunks_chunksOf, length, xorChunks_chunksOf, xorBytes_xorBytes covers]

end Sys2Proof.Machine


/-!
Proofs of the family 44_session.md: NOP, CREATE_SESSION and CLOSE (R170, R172, R174), the transition table of SSTATE
(R177) and its terminal state (R175), who writes and reads SKEY (R179), and the calls create_session and
generate_keystream_block (R180).
-/
namespace Sys2Proof

/-- R83, R88 (b): CREATE_SESSION's opcode with a bit of [31:24] set is illegal. -/
theorem decodeWord_formatS_mustBeZero {v : Word} (opc : v.toNat % 256 = 0x01) (high : 2 ^ 24 ≤ v.toNat) :
    decodeWord v = .error .mustBeZero := by
  have mbz : mbzS v ≠ 0#8 := fun zero => absurd ((mbzS_eq_zero v).1 zero) (Nat.not_lt.2 high)
  simp [decodeWord, (opcField_eq_iff v 0x01#8).2 opc, ifZero, mbz]

end Sys2Proof

namespace Sys2Proof.Machine

/-! ### The session commands (R170, R172, R174) -/

/-- R174: the live states are Created and Streaming. -/
theorem SessionState.live_eq_true_iff {x : SessionState} : x.live = true ↔ x = .created ∨ x = .streaming := by
  cases x <;> decide

/-- R174: the other states are NoSession, Exhausted and Closed. -/
theorem SessionState.live_eq_false_iff {x : SessionState} :
    x.live = false ↔ x = .noSession ∨ x = .exhausted ∨ x = .closed := by
  cases x <;> decide

/-- R172: CREATE_SESSION with a wrong key length, whatever the nonce length. -/
theorem exec_createSession_keyLength {klen : Nat} (wrong : klen ≠ 32) (nlen : Nat) (s : State) :
    exec (.createSession klen nlen) s = .next (complete .invalidKeyLength s) := by
  simpa [wrong] using exec_createSession_cases klen nlen s

/-- R172, R205: CREATE_SESSION with a wrong nonce length beside a right key length. -/
theorem exec_createSession_nonceLength {nlen : Nat} (wrong : nlen ≠ 12) (s : State) :
    exec (.createSession 32 nlen) s = .next (complete .invalidNonceLength s) := by
  simpa [wrong] using exec_createSession_cases 32 nlen s

/-- R174: CLOSE of a live session. -/
theorem exec_close_live {s : State} (live : s.sstate.live = true) :
    exec .close s = .next (complete .ok (endSession s)) := by
  simpa [live] using exec_close_cases s

/-- R174: CLOSE without a live session. -/
theorem exec_close_dead {s : State} (dead : s.sstate.live = false) :
    exec .close s = .next (complete .illegalState s) := by
  simpa [dead] using exec_close_cases s

/-- Every word of a cleared register file is 0. -/
theorem getElem_replicate_zero (n : Nat) (k : Fin n) : (Vector.replicate n 0#32)[k] = 0#32 :=
  Vector.getElem_replicate k.isLt

/-- Settles O21: NOP is its completion, and a format N word with a bit of [31:8] set is illegal. -/
theorem nopOnlyCompletes : Obligations.NopOnlyCompletes :=
  ⟨fun s => exec_onlyCompletes (exec_nop s), rfl, fun _ opc => decodeWord_formatN_mustBeZero (by simp [opc])⟩

/-- Settles O22: the three outcomes of CREATE_SESSION, and format S's fields. -/
theorem createSessionStartsAFreshSession : Obligations.CreateSessionStartsAFreshSession := by
  refine ⟨fun s => ?_, fun s _ nlen wrong => exec_onlyCompletes (exec_createSession_keyLength wrong nlen s),
    fun s _ wrong => exec_onlyCompletes (exec_createSession_nonceLength wrong s), fun klen nlen => ?_,
    fun _ => decodeWord_formatS_mustBeZero⟩
  · have run := exec_createSession_ok s
    exact ⟨_, run, ⟨rfl, rfl, rfl⟩, rfl, rfl, rfl, getElem_replicate_zero 16, rfl, exec_frame run⟩
  · simp only [encode, BitVec.ofNat_toNat, BitVec.setWidth_eq]

/-- Settles O25: the two outcomes of CLOSE, and format N's must-be-zero bits. -/
theorem closeEndsALiveSession : Obligations.CloseEndsALiveSession := by
  refine ⟨fun s live => ?_, fun s dead => ?_, rfl, fun _ opc => decodeWord_formatN_mustBeZero (by simp [opc])⟩
  · have run := exec_close_live (SessionState.live_eq_true_iff.2 live)
    exact ⟨_, run, ⟨rfl, rfl, rfl⟩, getElem_replicate_zero 8, getElem_replicate_zero 3, getElem_replicate_zero 16,
      rfl, rfl, exec_frame run⟩
  · exact exec_onlyCompletes (exec_close_dead (SessionState.live_eq_false_iff.2 dead))

/-! ### The transition table (R177) -/

/-- R177: CREATE_SESSION's rows. -/
theorem exec_createSession_transition {klen nlen : Nat} {s t : State}
    (h : exec (.createSession klen nlen) s = .next t) (b n : Nat) :
    (t.sstate, t.err) = transition (.createSession klen nlen) s.sstate b n := by
  rcases exec_createSession_cases klen nlen s with ⟨hk, e⟩ | ⟨hk, hn, e⟩ | ⟨hk, hn, e⟩ <;>
    cases e.symm.trans h
  · simp [transition, hk]
  · simp [transition, hk, hn]
  · simp [transition, hk, hn]

/-- R177: GEN_BLOCK's rows. -/
theorem exec_genBlock_transition {s t : State} (h : exec .genBlock s = .next t) (n : Nat) :
    (t.sstate, t.err) = transition .genBlock s.sstate s.blkidx.toNat n := by
  rcases exec_genBlock_cases s with ⟨valid, e⟩ | ⟨beyond, e⟩ <;> cases e.symm.trans h
  · exact (if_pos valid).symm
  · exact (if_neg (Nat.not_lt.2 beyond)).symm

/-- R177: XOR_CHUNK's rows. The table has no row for a Created session at the counter limit. -/
theorem exec_xorChunk_transition {len : Nat} {s t : State} (fresh : s.sstate = .created → s.nextBlk.toNat < 2 ^ 32)
    (h : exec (.xorChunk len) s = .next t) (b : Nat) :
    (t.sstate, t.err) = transition (.xorChunk len) s.sstate b s.nextBlk.toNat := by
  rcases exec_xorChunk_cases len s with ⟨long, e⟩ | ⟨fits, dead, e⟩ | ⟨fits, exhausted, e⟩ | ⟨rfl, live, e⟩ |
    ⟨pos, fits, live, below, e⟩ | ⟨pos, fits, live, limit, e⟩ <;> cases e.symm.trans h
  · simp [transition, long]
  · rcases dead with x | x <;> simp [transition, Nat.not_lt.2 fits, x]
  · simp [transition, Nat.not_lt.2 fits, exhausted]
  · rcases SessionState.live_eq_true_iff.1 live with x | x <;> simp [transition, x]
  · have notZero : len ≠ 0 := Nat.one_le_iff_ne_zero.1 pos
    rcases SessionState.live_eq_true_iff.1 live with x | x <;>
      simp [-Nat.reducePow, transition, Nat.not_lt.2 fits, notZero, x, below]
  · have notZero : len ≠ 0 := Nat.one_le_iff_ne_zero.1 pos
    rcases SessionState.live_eq_true_iff.1 live with x | x
    · exact absurd (fresh x) (Nat.not_lt.2 limit)
    · simp [-Nat.reducePow, transition, Nat.not_lt.2 fits, notZero, x, Nat.not_lt.2 limit]

/-- R177: CLOSE's rows. -/
theorem exec_close_transition {s t : State} (h : exec .close s = .next t) (b n : Nat) :
    (t.sstate, t.err) = transition .close s.sstate b n := by
  rcases exec_close_cases s with ⟨live, e⟩ | ⟨dead, e⟩ <;> cases e.symm.trans h
  · rcases SessionState.live_eq_true_iff.1 live with x | x <;> simp [transition, x]
  · rcases SessionState.live_eq_false_iff.1 dead with x | x | x <;> simp [transition, x]

/-- R177: a command leads to the session state and the code of its row of the table, unless a Created session stands at
the counter limit. -/
theorem exec_transition {i : Instr} {s t : State} (fresh : s.sstate = .created → s.nextBlk.toNat < 2 ^ 32)
    (h : exec i s = .next t) :
    (t.sstate, t.err) = transition i s.sstate s.blkidx.toNat s.nextBlk.toNat := by
  cases i with
  | nop => cases h; rfl
  | createSession klen nlen => exact exec_createSession_transition h _ _
  | genBlock => exact exec_genBlock_transition h _
  | xorChunk len => exact exec_xorChunk_transition fresh h _
  | close => exact exec_close_transition h _ _

/-- R133, R150: NEXT_BLK after an XOR_CHUNK that consumes a block. -/
theorem exec_xorChunk_nextBlk {len : Nat} {s t : State} (pos : 1 ≤ len) (fits : len ≤ 64)
    (live : s.sstate = .created ∨ s.sstate = .streaming) (below : s.nextBlk.toNat < 2 ^ 32)
    (h : exec (.xorChunk len) s = .next t) : t.nextBlk = s.nextBlk + 1#33 := by
  cases (exec_xorChunk_consumes pos fits live below).symm.trans h
  rfl

/-- R42 (d): a Created session has consumed no block, so it is below the counter limit. -/
theorem State.Inv.created_below {s : State} (hi : s.Inv) (created : s.sstate = .created) :
    s.nextBlk.toNat < 2 ^ 32 := by
  rw [hi.created created]
  decide

/-- R219: at the core's turn with no command pending, the step changes nothing of the core's record. -/
theorem step_core_of_idle {s : State} (hn : nextTurn s = .core) (hb : s.busy = false) :
    step s = .next (turnState s) := by
  simp [step, hn, runTurn, runTurnWith, coreTurnWith, hb]

/-- R203: at the core's turn with an illegal word pending, the step is its completion with IllegalCommand. -/
theorem step_core_of_illegal {s : State} {e : IllegalReason} (hn : nextTurn s = .core) (hb : s.busy = true)
    (hd : decodeWord s.pend = .error e) : step s = .next (complete .illegalCommand (turnState s)) := by
  simp [step, hn, runTurn, runTurnWith, coreTurnWith, hb, completeStepWith, hd, raiseError]

/-- Settles O28, event by event; a command's row is `exec_transition`, for by the invariants no Created session
stands at the counter limit. -/
theorem sessionTransitionsFollowTheTable : Obligations.SessionTransitionsFollowTheTable := by
  intro s t hi h
  refine ⟨fun hn => ?reset, fun a hn => ?host, fun hn hb => ?idle, fun e hn hb hd => ?illegal,
    fun i hn hb hd => ?command⟩
  case reset =>
    rw [step_reset hn] at h
    cases h
    rfl
  case host =>
    rw [step_host hn] at h
    exact (hostTurn_sameSlot h).sstate
  case idle =>
    rw [step_core_of_idle hn hb] at h
    cases h
    rfl
  case illegal =>
    rw [step_core_of_illegal hn hb hd] at h
    cases h
    exact ⟨rfl, rfl⟩
  case command =>
    rw [step_core hn hb hd] at h
    refine ⟨exec_transition (s := turnState s) hi.created_below h, ?_, ?_⟩
    · rintro rfl
      cases h
      rfl
    · rintro len rfl pos fits
      refine ⟨fun created => ?_, fun streaming below => ?_⟩
      · rw [exec_xorChunk_nextBlk (s := turnState s) pos fits (.inl created) (hi.created_below created) h,
          turnState_nextBlk, hi.created created]
        rfl
      · rw [exec_xorChunk_nextBlk (s := turnState s) pos fits (.inr streaming) below h]
        exact toNat_nextBlk_add_one below

/-! ### Exhausted (R175) -/

/-- R175, R177: in the table only a successful CREATE_SESSION leads out of Exhausted. -/
theorem transition_exhausted_leaves {i : Instr} {b n : Nat} (leaves : (transition i .exhausted b n).1 ≠ .exhausted) :
    i = .createSession 32 12 ∧ (transition i .exhausted b n).1 = .created := by
  cases i with
  | nop => exact absurd rfl leaves
  | createSession klen nlen =>
    by_cases hk : klen = 32
    · by_cases hn : nlen = 12
      · simp [transition, hk, hn]
      · simp [transition, hk, hn] at leaves
    · simp [transition, hk] at leaves
  | genBlock => by_cases hb : b < 2 ^ 32 <;> simp [-Nat.reducePow, transition, hb] at leaves
  | xorChunk len => by_cases hl : len > 64 <;> simp [transition, hl] at leaves
  | close => exact absurd rfl leaves

/-- R177: the row of a command in an Exhausted session, whatever its NEXT_BLK. -/
theorem exec_transition_exhausted {i : Instr} {s t : State} (exhausted : s.sstate = .exhausted)
    (h : exec i s = .next t) :
    (t.sstate, t.err) = transition i .exhausted s.blkidx.toNat s.nextBlk.toNat :=
  exhausted ▸ exec_transition (fun created => nomatch exhausted.symm.trans created) h

/-- Settles O29: the events other than reset and a command keep SSTATE, and a command follows the table. -/
theorem exhaustedIsTerminal : Obligations.ExhaustedIsTerminal := by
  intro s t exhausted h
  refine ⟨fun leaves => ?_, fun hn hb => ?_⟩
  · rcases step_cases h with ⟨hn, _⟩ | ⟨a, _, host⟩ | ⟨_, _, rfl⟩ | ⟨_, _, _, rfl⟩ | ⟨hn, hb, i, hd, run⟩
    · exact .inl hn
    · exact absurd ((hostTurn_sameSlot host).sstate.trans exhausted) leaves
    · exact absurd exhausted leaves
    · exact absurd exhausted leaves
    · have state : t.sstate = (transition i .exhausted s.blkidx.toNat s.nextBlk.toNat).1 :=
        congrArg Prod.fst (exec_transition_exhausted (s := turnState s) exhausted run)
      obtain ⟨rfl, created⟩ := transition_exhausted_leaves (state ▸ leaves)
      exact .inr ⟨hn, hb, hd, state.trans created⟩
  · have code : ∀ i, decodeWord s.pend = .ok i →
        t.err = (transition i .exhausted s.blkidx.toNat s.nextBlk.toNat).2 := fun i hd =>
      congrArg Prod.snd (exec_transition_exhausted (s := turnState s) exhausted ((step_core hn hb hd).symm.trans h))
    refine ⟨fun len hd => ?_, code .close, code .nop, fun hd => ?_⟩
    · rw [code _ hd]
      by_cases long : len > 64 <;> simp [transition, long]
    · rw [code _ hd]
      exact apply_ite Prod.snd _ _ _

/-! ### SKEY (R179) -/

/-- R36, R179: the two ways a command changes SKEY: a new session latches KEY, and CLOSE clears it. -/
theorem exec_skey_cases {i : Instr} {s t : State} (h : exec i s = .next t) :
    t.skey = s.skey ∨ (i = .createSession 32 12 ∧ t.skey = s.key) ∨
      (i = .close ∧ t.skey = Vector.replicate 8 0#32) := by
  obtain ⟨c, u, e, shape⟩ := exec_shape i s
  cases e.symm.trans h
  rcases shape with rfl | ⟨hi, _, rfl⟩ | ⟨hi, _, _, rfl⟩ | ⟨_, _, _, rfl⟩ | ⟨_, _, _, _, _, _, _, rfl⟩ |
    ⟨_, _, _, _, _, _, _, rfl⟩
  · exact .inl rfl
  · exact .inr (.inl ⟨hi, rfl⟩)
  · exact .inr (.inr ⟨hi, rfl⟩)
  · exact .inl rfl
  · exact .inl rfl
  · exact .inl rfl

/-- R179: a command other than XOR_CHUNK takes the same branch and writes the same whatever SKEY holds. -/
theorem exec_of_skey {i : Instr} (notXor : ∀ len, i ≠ .xorChunk len) (s : State) (k : KeyWords) :
    ∃ t u, exec i s = .next t ∧ exec i { s with skey := k } = .next u ∧ { u with skey := t.skey } = t := by
  cases i with
  | nop => exact ⟨_, _, exec_nop _, exec_nop _, rfl⟩
  | createSession klen nlen =>
    by_cases hk : klen = 32
    · subst hk
      by_cases hn : nlen = 12
      · subst hn
        exact ⟨_, _, exec_createSession_ok _, exec_createSession_ok _, rfl⟩
      · exact ⟨_, _, exec_createSession_nonceLength hn _, exec_createSession_nonceLength hn _, rfl⟩
    · exact ⟨_, _, exec_createSession_keyLength hk _ _, exec_createSession_keyLength hk _ _, rfl⟩
  | genBlock =>
    rcases Nat.lt_or_ge s.blkidx.toNat (2 ^ 32) with valid | beyond
    · exact ⟨_, _, exec_genBlock_ok valid, exec_genBlock_ok valid, rfl⟩
    · exact ⟨_, _, exec_genBlock_overflow beyond, exec_genBlock_overflow beyond, rfl⟩
  | xorChunk len => exact absurd rfl (notXor len)
  | close =>
    cases live : s.sstate.live with
    | true => exact ⟨_, _, exec_close_live live, exec_close_live live, rfl⟩
    | false => exact ⟨_, _, exec_close_dead live, exec_close_dead live, rfl⟩

/-- Settles O31: the writers of SKEY by the cases of the step; host reads by O32, which leaves SKEY free. -/
theorem sessionKeyIsOwnedByTheSession : Obligations.SessionKeyIsOwnedByTheSession := by
  refine ⟨fun s t h changed => ?_, fun s k i notXor => exec_of_skey notXor s k, fun s k off fixed =>
    hostReadsRevealNoKey s { s with skey := k } off rfl rfl rfl rfl rfl rfl rfl rfl rfl rfl fixed⟩
  rcases step_cases h with ⟨hn, rfl⟩ | ⟨a, _, host⟩ | ⟨_, _, rfl⟩ | ⟨_, _, _, rfl⟩ | ⟨hn, hb, i, hd, run⟩
  · exact .inl ⟨hn, getElem_replicate_zero 8⟩
  · exact absurd (hostTurn_sameSlot host).skey changed
  · exact absurd rfl changed
  · exact absurd rfl changed
  · rcases exec_skey_cases run with same | ⟨rfl, latched⟩ | ⟨rfl, cleared⟩
    · exact absurd same changed
    · exact .inr ⟨hn, hb, .inl ⟨hd, latched⟩⟩
    · exact .inr ⟨hn, hb, .inr ⟨hd, fun k => cleared ▸ getElem_replicate_zero 8 k⟩⟩

/-! ### The host's calls (R180) -/

/-- R98: the staging that both calls begin with: `ldkey`, then `ldnonce`. -/
theorem hostWrites_ldkey_ldnonce {s : State} (idle : s.busy = false) (K : Vector Byte 32) (N : Vector Byte 12) :
    hostWrites (ldnonceWrites N) (hostWrites (ldkeyWrites K) s) =
      { s with key := keyOfBytes K, nonce := nonceOfBytes N } := by
  rw [hostWrites_ldkey idle, hostWrites_ldnonce (s := { s with key := keyOfBytes K }) idle]

/-- R180: the call create_session starts a session from the loaded key and nonce. -/
theorem hostCreateSession_eq {s : State} (idle : s.busy = false) (K : Vector Byte 32) (N : Vector Byte 12) :
    hostCreateSession K N s = .next (complete .ok (startSession (issue (encode (.createSession 32 12))
      { s with key := keyOfBytes K, nonce := nonceOfBytes N }))) := by
  rw [hostCreateSession, hostWrites_ldkey_ldnonce idle]
  exact runCommand_eq (i := .createSession 32 12) idle (decodeWord_encode (by decide))

/-- Settles O46: the session's copies are the loaded registers, and the call writes neither BLKIDX nor DIN. -/
theorem createSessionCallMakesTheSession : Obligations.CreateSessionCallMakesTheSession := fun K N _ idle =>
  ⟨_, hostCreateSession_eq idle K N, ⟨rfl, rfl, rfl⟩, rfl, rfl, rfl, rfl, rfl, rfl⟩

/-- R97, R98: the core as GEN_BLOCK finds it in generate_keystream_block: the three operands loaded, the command
issued. -/
def stageGenBlock (K : Vector Byte 32) (N : Vector Byte 12) (i : BitVec 64) (s : State) : State :=
  issue (encode .genBlock) { s with key := keyOfBytes K, nonce := nonceOfBytes N, blkidx := i }

/-- R180: the call generate_keystream_block, less its rddout, is GEN_BLOCK on the staged operands. -/
theorem hostGenerateBlock_eq {s : State} (idle : s.busy = false) (K : Vector Byte 32) (N : Vector Byte 12)
    (i : BitVec 64) : hostGenerateBlock K N i s = exec .genBlock (stageGenBlock K N i s) := by
  rw [hostGenerateBlock, hostWrites_ldkey_ldnonce idle,
    hostWrites_ldidx (s := { s with key := keyOfBytes K, nonce := nonceOfBytes N }) idle]
  exact runCommand_eq (i := .genBlock) idle (decodeWord_encode rfl)

/-- R98, R109: the bytes of a block of words in the host's order are its serialization. -/
theorem bytesOfBlock_eq_serialize (O : Block) : bytesOfBlock O = (serialize O).toList := by
  refine List.ext_getElem? fun j => ?_
  by_cases inside : j < 64
  · rw [bytesOfBlock_getElem? O inside, ← serialize_getElem O inside]
    simp [inside]
  · rw [List.getElem?_eq_none (by rw [bytesOfBlock_length]; omega), List.getElem?_eq_none (by simp; omega)]

/-- R98, R140: what `rddout` returns after a successful GEN_BLOCK. -/
theorem readDout_generateBlock (s : State) : (readDout (complete .ok (generateBlock s))).1 =
    (chachaBlock s.key s.nonce (counterWord s.blkidx.toNat)).toList := by
  rw [readDout_eq (complete_busy _ _), bytesOfBlock_eq_serialize]
  rfl

/-- Settles O47, by the two outcomes of GEN_BLOCK on the staged operands. -/
theorem generateBlockCallReturnsTheBlock : Obligations.GenerateBlockCallReturnsTheBlock := by
  intro K N i s idle
  rw [hostGenerateBlock_eq idle]
  rcases Nat.lt_or_ge i.toNat (2 ^ 32) with valid | beyond
  · exact ⟨_, exec_genBlock_ok valid, ⟨rfl, rfl, rfl, rfl⟩,
      fun _ => ⟨rfl, readDout_generateBlock (stageGenBlock K N i s)⟩, fun beyond => absurd valid (Nat.not_lt.2 beyond)⟩
  · exact ⟨_, exec_genBlock_overflow beyond, ⟨rfl, rfl, rfl, rfl⟩, fun valid => absurd valid (Nat.not_lt.2 beyond),
      fun _ => ⟨rfl, rfl⟩⟩

end Sys2Proof.Machine


/-!
Proofs of the family 60_exceptions.md: an error writes its code and nothing else (R202), illegal words complete with
IllegalCommand (R203), and the completion step runs the decoded pending command (R208, R209, R219).
-/
namespace Sys2Proof

/-! ### Legal and illegal words (R88) -/

/-- R81 to R84, R88: a word is a command when it has an assigned OPC and its format's must-be-zero bits are zero. -/
theorem decodeWord_isOk_iff {v : Word} : (∃ i, decodeWord v = .ok i) ↔
    ((v.toNat % 256 = 0x00 ∨ v.toNat % 256 = 0x02 ∨ v.toNat % 256 = 0x04) ∧ v.toNat < 256) ∨
    (v.toNat % 256 = 0x01 ∧ v.toNat < 2 ^ 24) ∨
    (v.toNat % 256 = 0x03 ∧ v.toNat < 2 ^ 16) := by
  simp only [decodeWord_ok_iff, opcField_eq_iff, mbzN_eq_zero, mbzS_eq_zero, mbzX_eq_zero, exists_or,
    exists_and_left, exists_eq, and_true, BitVec.toNat_ofNat]
  omega

/-- R89: the decoder is total: a word is illegal exactly when it is no command. -/
theorem decodeWord_isError_iff {v : Word} : (∃ e, decodeWord v = .error e) ↔ ¬ ∃ i, decodeWord v = .ok i := by
  cases decodeWord v <;> simp

/-- R80: a command word holds its number's low 32 bits. -/
theorem ofNat_mod_wordSize (w : Nat) : BitVec.ofNat 32 (w % 2 ^ 32) = BitVec.ofNat 32 w := by
  rw [← BitVec.toNat_ofNat, BitVec.ofNat_toNat, BitVec.setWidth_eq]

/-- R54: the four bytes of any word decode as the word. -/
theorem decodeBytes_le32Bytes (v : Word) : decodeBytes (le32Bytes v) = decodeWord v :=
  congrArg decodeWord (Machine.le32_wordByte v)

/-- R54, R80: the table's 32 bits decode as the word they are. -/
theorem decodeWord_of_decodeTableWord {w : Nat} {i : Instr} (h : decodeTableWord 32 w = some i) :
    decodeWord (BitVec.ofNat 32 w) = .ok i := by
  rw [decodeTableWord, if_neg (by decide), ofNat_mod_wordSize, decodeBytes_le32Bytes] at h
  cases hd : decodeWord (BitVec.ofNat 32 w) with
  | error e => simp [hd, Except.toOption] at h
  | ok j => simpa [hd, Except.toOption] using h

end Sys2Proof

namespace Sys2Proof.Machine

/-! ### Errors (R202, R203) -/

/-- Settles O5, by the legal words' numbers: the illegal ones are all the others. -/
theorem illegalWordsCompleteWithIllegalCommand : Obligations.IllegalWordsCompleteWithIllegalCommand := by
  intro s hn hb
  refine ⟨?_, fun ⟨_, hd⟩ => step_core_of_illegal hn hb hd⟩
  rw [decodeWord_isError_iff, decodeWord_isOk_iff]
  omega

/-- R202: a command that fails is its completion, or XOR_CHUNK's move to Exhausted at the counter limit. -/
theorem exec_error_cases {i : Instr} {s t : State} (h : exec i s = .next t) (failed : t.err ≠ .ok) :
    t = complete t.err s ∨
    ((∃ len, i = .xorChunk len) ∧ t = complete .counterOverflow { s with sstate := .exhausted }) := by
  obtain ⟨c, u, e, shape⟩ := exec_shape i s
  cases e.symm.trans h
  rcases shape with rfl | ⟨_, rfl, _⟩ | ⟨_, rfl, _⟩ | ⟨_, rfl, _⟩ | ⟨_, _, rfl, _⟩ | ⟨len, rfl, rfl, _, _, _, _, rfl⟩
  · exact .inl rfl
  · exact absurd rfl failed
  · exact absurd rfl failed
  · exact absurd rfl failed
  · exact absurd rfl failed
  · exact .inr ⟨⟨len, rfl⟩, rfl⟩

/-- R209: every command answers a completed state. -/
theorem exec_completes (i : Instr) (s : State) : ∃ t, exec i s = .next t ∧ t.busy = false ∧ t.done = true := by
  obtain ⟨c, u, run, -⟩ := exec_shape i s
  exact ⟨_, run, complete_busy c u, complete_done c u⟩

/-- Settles O26, by what a failing command writes and the frame of every command. -/
theorem errorsWriteOnlyTheirCode : Obligations.ErrorsWriteOnlyTheirCode := by
  refine ⟨fun i s => (exec_completes i s).imp fun _ => And.left, fun i s t h => ⟨fun failed => ?_, ?_⟩⟩
  · rcases exec_error_cases h failed with e | ⟨isXor, e⟩
    · exact .inl e
    · exact .inr ⟨isXor, congrArg State.err e, e⟩
  · have frame := exec_frame h
    exact ⟨frame.key, frame.nonce, frame.din, frame.blkidx⟩

/-! ### The completion step (R209) -/

/-- R212: the model's bookkeeping around an event leaves the core's record alone. -/
theorem turnState_sameCore (s : State) : SameCore s (turnState s) := by
  constructor <;> rfl

/-- Settles O6, by the cases of the core's turn. -/
theorem stepRunsTheDecodedCommand : Obligations.StepRunsTheDecodedCommand :=
  ⟨fun s => ⟨turnState_sameCore s, rfl, rfl⟩, fun _ => step_core_of_idle, fun _ _ => step_core_of_illegal,
    fun _ _ => step_core, fun s i => exec_completes i s⟩

/-- R208: a placed word is pending at the core's turn, which starts from the state its issue leaves. -/
theorem turnState_withFetchWord (s : State) (w : Nat) :
    turnState (s.withFetchWord 32 w) = drift (issue (BitVec.ofNat 32 w) s) := by
  rw [State.withFetchWord, ofNat_mod_wordSize]
  rfl

/-- Settles O7, by the core's turn with the placed word's command pending. -/
theorem placedWordRunsInTheNextStep : Obligations.PlacedWordRunsInTheNextStep := by
  intro s w i h
  have pending : (s.withFetchWord 32 w).pend = BitVec.ofNat 32 w := congrArg State.pend (turnState_withFetchWord s w)
  rw [step_core rfl rfl (pending ▸ decodeWord_of_decodeTableWord h), turnState_withFetchWord]

end Sys2Proof.Machine

/-!
Proofs of the family 70_reset_and_hazards.md: reset (R230, R231), and that every issued command completes (R248), alone,
beside any host program under a weakly fair schedule, and awaited by `wait` (R96).
-/
namespace Sys2Proof.Machine

/-! ### STATUS (R24) -/

/-- R24: STATUS depends on the record alone. -/
theorem SameCore.statusWord {s t : State} (same : SameCore s t) : statusWord t = statusWord s := by
  simp only [Machine.statusWord, same.err, same.wign, same.done, same.busy, same.sstate]

/-- R24: what a read of STATUS tells of BUSY. -/
theorem statusWord_busy (s : State) : (statusWord s).extractLsb' 3 1 = BitVec.ofBool s.busy :=
  let ⟨_, busy, _⟩ := statusWord_fields s
  busy

/-! ### Reset (R230, R231) -/

/-- R20: where 0 stands in every element of the record, it stands so after a span that leaves the record the same. -/
theorem AllZero.of_sameCore {s t : State} (zero : AllZero s) (same : SameCore s t) : AllZero t where
  key := same.key ▸ zero.key
  nonce := same.nonce ▸ zero.nonce
  blkidx := same.blkidx.trans zero.blkidx
  din := same.din ▸ zero.din
  dout := same.dout ▸ zero.dout
  skey := same.skey ▸ zero.skey
  snonce := same.snonce ▸ zero.snonce
  nextBlk := same.nextBlk.trans zero.nextBlk
  sstate := same.sstate.trans zero.sstate
  busy := same.busy.trans zero.busy
  done := same.done.trans zero.done
  wign := same.wign.trans zero.wign
  err := same.err.trans zero.err
  pend := same.pend.trans zero.pend

/-- R24: STATUS reads 0 where its fields are 0. -/
theorem AllZero.statusWord {s : State} (zero : AllZero s) : statusWord s = 0 := by
  rw [Machine.statusWord, zero.err, zero.wign, zero.done, zero.busy, zero.sstate]
  rfl

/-- R230: the state after reset. -/
theorem reset_allZero : AllZero State.reset where
  key := getElem_replicate_zero 8
  nonce := getElem_replicate_zero 3
  blkidx := rfl
  din := getElem_replicate_zero 16
  dout := getElem_replicate_zero 16
  skey := getElem_replicate_zero 8
  snonce := getElem_replicate_zero 3
  nextBlk := rfl
  sstate := rfl
  busy := rfl
  done := rfl
  wign := rfl
  err := rfl
  pend := rfl

/-- R230: reset leaves the record of the state after reset, whatever it finds. -/
theorem resetCore_sameCore (s : State) : SameCore State.reset (resetCore s) := by
  constructor <;> rfl

/-- Settles O14: reset, from any state, leaves the record of the state after reset, in which no command is pending. -/
theorem resetLeavesZeroEverywhere : Obligations.ResetLeavesZeroEverywhere := by
  refine ⟨⟨reset_allZero, reset_allZero.statusWord⟩, fun s hn => ?_⟩
  have zero : AllZero (resetCore (turnState s)) := reset_allZero.of_sameCore (resetCore_sameCore _)
  exact ⟨_, step_reset hn, zero, zero.statusWord, rfl,
    fun core => ⟨step_core_of_idle core zero.busy, zero.of_sameCore (turnState_sameCore _)⟩⟩

/-! ### The core alone (R248) -/

/-- R209: at the core's turn a pending command completes, whatever its word. -/
theorem step_core_completes {s : State} (hn : nextTurn s = .core) (hb : s.busy = true) :
    ∃ t, step s = .next t ∧ t.busy = false ∧ t.done = true := by
  cases hd : decodeWord s.pend with
  | error e => exact ⟨_, step_core_of_illegal hn hb hd, rfl, rfl⟩
  | ok i => exact step_core hn hb hd ▸ exec_completes i (turnState s)

/-- R248: a run of at most `n` steps completes the pending command. -/
def CompletesWithin (n : Nat) (s : State) : Prop :=
  ∃ k t, k ≤ n ∧ Host.Core.run core k s = .next t ∧ t.busy = false ∧ t.done = true

/-- R209: where the core has the turn, one step completes a pending command. -/
theorem completesWithin_of_core {s : State} (hn : nextTurn s = .core) (hb : s.busy = true) (n : Nat) :
    CompletesWithin (n + 1) s :=
  let ⟨t, h, completed⟩ := step_core_completes hn hb
  ⟨1, t, Nat.le_add_left 1 n, run_next 0 h, completed⟩

/-- R248: one step more, in front. -/
theorem CompletesWithin.of_step {n : Nat} {s t : State} (h : step s = .next t) :
    CompletesWithin n t → CompletesWithin (n + 1) s := fun ⟨k, u, bound, run, completed⟩ =>
  ⟨k + 1, u, Nat.succ_le_succ bound, (run_next k h).trans run, completed⟩

/-- Settles O20, by induction on the listed events: a host access leaves the command pending and one event fewer, and
the core's turn, which comes at the latest when no event is left, completes it. -/
theorem everyIssuedCommandCompletes : Obligations.EveryIssuedCommandCompletes := by
  intro s hb covered
  show CompletesWithin (s.turns.length + 1) s
  induction listed : s.turns generalizing s with
  | nil => exact completesWithin_of_core (by simp [nextTurn, listed]) hb _
  | cons e rest ih =>
    have hn : nextTurn s = e := by simp [nextTurn, listed]
    obtain ⟨notReset, inContract⟩ := covered e (by simp [listed])
    cases e with
    | reset => exact absurd rfl notReset
    | core => exact completesWithin_of_core hn hb _
    | host a =>
      obtain ⟨t, h, left, same⟩ := step_hostAccess_busy hn inContract hb
      have left : t.turns = rest := by rw [left, listed, List.tail_cons]
      have covered : ∀ e ∈ t.turns, e ≠ .reset ∧ e.inContract = true := fun e he =>
        covered e (by rw [listed]; exact .tail _ (left ▸ he))
      exact .of_step h (ih t (same.busy.trans hb) covered left)

/-! ### What a turn of the system does to the core -/

/-- R8: an event's turn that goes on is the core's step at that event. -/
theorem System.core_of_event {y z : System} {t : Turn} {h : State → HostAgent} (turn : y.event t h = .next z) :
    Machine.step { y.core with turns := [t] } = .next z.core := by
  unfold System.event at turn
  split at turn
  · cases turn
    assumption
  · cases turn
  · cases turn

/-- R8: a statement leaves the core alone, or it is the core's step at a host access. -/
theorem System.core_of_execStmt {y z : System} {st : Stmt} (turn : y.execStmt st = .next z) :
    z.core = y.core ∨ ∃ a, Machine.step { y.core with turns := [.host a] } = .next z.core := by
  cases st with
  | wr r v => exact .inr ⟨_, System.core_of_event turn⟩
  | rd r t => exact .inr ⟨_, System.core_of_event turn⟩
  | _ => cases turn; exact .inl rfl

/-- R8: the host's turn leaves the core alone, or it is the core's step at a host access. -/
theorem System.core_of_hostStep {y z : System} (turn : y.hostStep = .next z) :
    z.core = y.core ∨ ∃ a, Machine.step { y.core with turns := [.host a] } = .next z.core := by
  unfold System.hostStep at turn
  split at turn
  · split at turn
    · exact System.core_of_execStmt turn
    · cases turn
      exact .inl rfl
  · cases turn
    exact .inl rfl

/-- R8, R212: a turn other than reset leaves the core alone, or it is the core's step at an event other than reset. -/
theorem System.core_of_step {y z : System} {a : Agent} (turn : y.step a = .next z) (noReset : a ≠ .reset) :
    z.core = y.core ∨ ∃ t, t ≠ .reset ∧ Machine.step { y.core with turns := [t] } = .next z.core := by
  cases a with
  | reset => exact absurd rfl noReset
  | core => exact .inr ⟨.core, nofun, System.core_of_event turn⟩
  | host => exact (System.core_of_hostStep turn).imp_right fun ⟨a, h⟩ => ⟨.host a, nofun, h⟩

/-- R231, R219: a turn of the core or of reset leaves the host alone and an idle core idle; the core's own turn then
leaves all of its record. -/
theorem System.step_of_notHost {a : Agent} (notHost : a ≠ .host) (y : System) :
    ∃ c, y.step a = .next ⟨c, y.host⟩ ∧
      (y.core.busy = false → c.busy = false ∧ (a ≠ .reset → SameCore y.core c)) := by
  cases a with
  | host => exact absurd rfl notHost
  | reset => exact ⟨_, y.step_reset, fun _ => ⟨rfl, fun noReset => absurd rfl noReset⟩⟩
  | core =>
    cases hb : y.core.busy with
    | true =>
      obtain ⟨c, h, -⟩ := System.step_core_busy hb
      exact ⟨c, h, nofun⟩
    | false => exact ⟨_, System.step_core_idle hb, fun _ => ⟨hb, fun _ => by constructor <;> rfl⟩⟩

/-! ### Completion under a weakly fair schedule (R248) -/

/-- R26, R27: a command is pending or has completed. -/
def State.BusyOrDone (s : State) : Prop := s.busy = true ∨ s.done = true

/-- R26, R27, R208: DONE is cleared only by an issue, which sets BUSY, and by reset; BUSY is cleared only by
completion, which sets DONE, and by reset. -/
theorem State.BusyOrDone.step {s t : State} (h : s.BusyOrDone) (hn : nextTurn s ≠ .reset) (run : step s = .next t) :
    t.BusyOrDone := by
  unfold State.BusyOrDone at h ⊢
  rcases step_flags_cases run with ⟨reset, _⟩ | ⟨_, _, same⟩ | ⟨_, _, _, issued⟩ | ⟨_, _, _, completed⟩ |
    ⟨_, same⟩
  · exact absurd reset hn
  · rwa [same.busy, same.done]
  · exact .inl issued.busy
  · exact .inr completed.done
  · rwa [same.busy, same.done]

/-- R248: so it is beside a host program, at every turn other than reset. -/
theorem State.BusyOrDone.systemStep {y z : System} {a : Agent} (h : y.core.BusyOrDone) (noReset : a ≠ .reset)
    (turn : y.step a = .next z) : z.core.BusyOrDone := by
  rcases System.core_of_step turn noReset with same | ⟨t, notReset, run⟩
  · rwa [same]
  · exact State.BusyOrDone.step (s := { y.core with turns := [t] }) h notReset run

/-- R248: no turn before turn `n` is a reset. -/
def NoResetBefore (σ : Schedule) (n : Nat) : Prop := ∀ m, m < n → σ m ≠ .reset

/-- R248: a shorter run has no more resets. -/
theorem NoResetBefore.of_succ {σ : Schedule} {n : Nat} (h : NoResetBefore σ (n + 1)) : NoResetBefore σ n :=
  fun m hm => h m (Nat.lt_succ_of_lt hm)

/-- R248: without a reset a pending command stays pending or completes, however many follow it. -/
theorem System.busyOrDone_of_noReset {σ : Schedule} {y z : System} {n : Nat} (start : y.core.BusyOrDone)
    (noReset : NoResetBefore σ n) (run : y.runUnder σ n = .next z) : z.core.BusyOrDone := by
  induction n generalizing z with
  | zero =>
    cases run
    exact start
  | succ n ih =>
    obtain ⟨x, earlier⟩ := System.runUnder_goesOn σ n y
    exact (ih noReset.of_succ earlier).systemStep (noReset n n.lt_succ_self)
      ((System.runUnder_succ earlier).symm.trans run)

/-- R248: without a reset, a pending command has completed whenever the core is idle. -/
theorem System.done_of_idle {σ : Schedule} {y z : System} {n : Nat} (pending : y.core.busy = true)
    (noReset : NoResetBefore σ n) (run : y.runUnder σ n = .next z) (idle : z.core.busy = false) :
    z.core.done = true :=
  (System.busyOrDone_of_noReset (.inl pending) noReset run).resolve_left (by simp [idle])

/-- R209: a turn of the core disables its completion step. -/
theorem System.not_busyAfter_succ {σ : Schedule} {y : System} {n : Nat} (core : σ n = .core)
    (busy : y.BusyAfter σ n) : ¬ y.BusyAfter σ (n + 1) := by
  rintro ⟨z, later, still⟩
  obtain ⟨x, run, hb⟩ := busy
  obtain ⟨c, turn, idle, -⟩ := System.step_core_busy hb
  rw [System.runUnder_succ run, core, turn] at later
  cases later
  exact absurd (still.symm.trans idle) (by decide)

/-- R248: under a weakly fair schedule there is a first moment at which the core is idle. -/
theorem System.exists_first_idle {σ : Schedule} {y : System} (fair : WeaklyFair σ y) :
    ∃ n z, y.runUnder σ n = .next z ∧ z.core.busy = false ∧ ∀ m, m < n → y.BusyAfter σ m := by
  classical
  have ever : ∃ n, ¬ y.BusyAfter σ n := by
    by_contra! always
    obtain ⟨m, -, core⟩ := fair 0 fun m _ => always m
    exact System.not_busyAfter_succ core (always m) (always (m + 1))
  obtain ⟨z, run⟩ := System.runUnder_goesOn σ (Nat.find ever) y
  exact ⟨Nat.find ever, z, run, Bool.eq_false_iff.2 fun busy => Nat.find_spec ever ⟨z, run, busy⟩,
    fun m hm => not_not.1 (Nat.find_min ever hm)⟩

/-- Settles O51: weak fairness gives a moment at which the core is idle, and without a reset the command has then
completed. -/
theorem fairSchedulesCompleteEveryCommand : Obligations.FairSchedulesCompleteEveryCommand := by
  intro σ y fair pending
  obtain ⟨n, z, run, idle, -⟩ := System.exists_first_idle fair
  exact ⟨n, z, run, idle, fun noReset => System.done_of_idle pending noReset run idle⟩

/-! ### The statements of `wait` (R96) -/

/-- R24, R96: the mask of `wait` selects bit 3, STATUS.BUSY. -/
theorem and_busyMask_eq_zero_iff (v : Word) : v &&& 0x00000008#32 = 0#32 ↔ v.extractLsb' 3 1 = 0#1 := by
  have mask : 0x00000008#32 = BitVec.twoPow 32 3 := rfl
  have bit : v.extractLsb' 3 1 = BitVec.ofBool (v.getLsbD 3) := by
    ext i hi
    obtain rfl : i = 0 := by omega
    simp
  rw [mask, BitVec.and_twoPow, bit]
  cases v.getLsbD 3 <;> decide

/-- R96: the host `h` runs the program of `h₀` and stands `d` statements behind the place of `h₀`. -/
structure HostAgent.StandsBehind (h₀ : HostAgent) (d : Nat) (h : HostAgent) : Prop where
  running : h.status = .running
  prog : h.prog = h₀.prog
  pos : h.pos = h₀.pos + d

section
variable {h₀ : HostAgent} {line t : Nat} {y : System}

/-- R96: inside a `wait` the next statement is one of its three. -/
theorem AtWait.stmt {d : Nat} {st : Stmt} {h : HostAgent} (wait : AtWait h₀ line t) (behind : h₀.StandsBehind d h)
    (stmt : (waitStmts line t)[d]? = some st) : h.prog[h.pos]? = some st := by
  obtain ⟨inside, rfl⟩ := List.getElem?_eq_some_iff.1 stmt
  rw [behind.prog, behind.pos, ← List.getElem?_drop]
  exact List.prefix_iff_getElem?.1 wait.here d inside

/-- R96: the turn at the label. -/
theorem AtWait.step_label (wait : AtWait h₀ line t) (behind : h₀.StandsBehind 0 y.host) :
    ∃ h, y.step .host = .next ⟨y.core, h⟩ ∧ h₀.StandsBehind 1 h :=
  ⟨y.host.advance, System.step_host behind.running (wait.stmt behind rfl), behind.running, behind.prog,
    congrArg (· + 1) behind.pos⟩

/-- R96: the turn at the read leaves the core's record alone and binds its STATUS. -/
theorem AtWait.step_read (wait : AtWait h₀ line t) (behind : h₀.StandsBehind 1 y.host) :
    ∃ z, y.step .host = .next z ∧ SameCore y.core z.core ∧ h₀.StandsBehind 2 z.host ∧
      z.host.vars.lookup t = some (statusWord y.core) :=
  ⟨_, System.step_rd behind.running (wait.stmt behind rfl), hostRead_sameCore _ _ _,
    ⟨behind.running, behind.prog, congrArg (· + 1) behind.pos⟩,
    List.lookup_cons_self.trans (congrArg some (memRead_status _))⟩

/-- R96: the turn at the branch, where the variable has BUSY = 0, passes the `wait`. -/
theorem AtWait.step_branch_idle {v : Word} (wait : AtWait h₀ line t) (behind : h₀.StandsBehind 2 y.host)
    (bound : y.host.vars.lookup t = some v) (idle : v.extractLsb' 3 1 = 0#1) :
    ∃ h, y.step .host = .next ⟨y.core, h⟩ ∧ h₀.StandsBehind 3 h ∧ h.vars = y.host.vars := by
  refine ⟨y.host.advance, ?_, ⟨behind.running, behind.prog, congrArg (· + 1) behind.pos⟩, rfl⟩
  rw [System.step_host behind.running (wait.stmt behind rfl)]
  simp [System.execStmt, HostAgent.branch, bound, (and_busyMask_eq_zero_iff v).2 idle]

/-- R96: the turn at the branch, where the variable has BUSY = 1, goes back to the label. -/
theorem AtWait.step_branch_busy {v : Word} (wait : AtWait h₀ line t) (behind : h₀.StandsBehind 2 y.host)
    (bound : y.host.vars.lookup t = some v) (busy : v.extractLsb' 3 1 ≠ 0#1) :
    ∃ h, y.step .host = .next ⟨y.core, h⟩ ∧ h₀.StandsBehind 0 h := by
  have taken : v &&& 0x00000008#32 ≠ 0#32 := fun zero => busy ((and_busyMask_eq_zero_iff v).1 zero)
  refine ⟨{ y.host with pos := h₀.pos }, ?_, behind.running, behind.prog, rfl⟩
  rw [System.step_host behind.running (wait.stmt behind rfl)]
  simp [System.execStmt, HostAgent.branch, bound, taken, HostAgent.jump, behind.prog, wait.label]

/-! ### How far a host is from passing its `wait` -/

/-- R96: the host `h`, in the `wait` at which `h₀` stands, is this many turns of its own from having passed it, if the
core is idle from now on; `seen` is what its variable then holds. -/
inductive WaitStage (h₀ : HostAgent) (t : Nat) (seen : Word → Prop) : Nat → HostAgent → Prop
  | passed {h : HostAgent} {v : Word} :
    h₀.StandsBehind 3 h → h.vars.lookup t = some v → seen v → WaitStage h₀ t seen 0 h
  | branch {h : HostAgent} {v : Word} :
    h₀.StandsBehind 2 h → h.vars.lookup t = some v → seen v → WaitStage h₀ t seen 1 h
  | read {h : HostAgent} : h₀.StandsBehind 1 h → WaitStage h₀ t seen 2 h
  | label {h : HostAgent} : h₀.StandsBehind 0 h → WaitStage h₀ t seen 3 h
  | retry {h : HostAgent} {v : Word} :
    h₀.StandsBehind 2 h → h.vars.lookup t = some v → v.extractLsb' 3 1 ≠ 0#1 → WaitStage h₀ t seen 4 h

/-- R96: at the start of a `wait` it is three turns. -/
theorem AtWait.stage (wait : AtWait h₀ line t) (seen : Word → Prop) : WaitStage h₀ t seen 3 h₀ :=
  .label ⟨wait.running, rfl, rfl⟩

/-- R96: the stage, with less said of what the variable holds. -/
theorem WaitStage.mono {seen seen' : Word → Prop} {k : Nat} {h : HostAgent} (stage : WaitStage h₀ t seen k h)
    (less : ∀ v, seen v → seen' v) : WaitStage h₀ t seen' k h := by
  cases stage with
  | passed behind bound saw => exact .passed behind bound (less _ saw)
  | branch behind bound saw => exact .branch behind bound (less _ saw)
  | read behind => exact .read behind
  | label behind => exact .label behind
  | retry behind bound busy => exact .retry behind bound busy

/-- R96: while the core is busy the host's turn leaves it polling, with nothing seen of an idle core. -/
theorem AtWait.step_busy {k : Nat} (wait : AtWait h₀ line t) (busy : y.core.busy = true)
    (stage : WaitStage h₀ t (fun _ => False) k y.host) :
    ∃ z k', y.step .host = .next z ∧ WaitStage h₀ t (fun _ => False) k' z.host := by
  cases stage with
  | passed _ _ saw => exact saw.elim
  | branch _ _ saw => exact saw.elim
  | read behind =>
    obtain ⟨z, turn, -, behind, bound⟩ := wait.step_read behind
    exact ⟨z, 4, turn, .retry behind bound (by simp [statusWord_busy, busy])⟩
  | label behind =>
    obtain ⟨h, turn, behind⟩ := wait.step_label behind
    exact ⟨_, 2, turn, .read behind⟩
  | retry behind bound again =>
    obtain ⟨h, turn, behind⟩ := wait.step_branch_busy behind bound again
    exact ⟨_, 3, turn, .label behind⟩

/-- R96: each turn of the host brings it one turn nearer, if what it may yet read of the core is what it is to see,
and that has BUSY = 0. -/
theorem AtWait.step_idle {k : Nat} {seen : Word → Prop} (wait : AtWait h₀ line t)
    (stage : WaitStage h₀ t seen (k + 1) y.host) (sees : seen (statusWord y.core))
    (idle : ∀ v, seen v → v.extractLsb' 3 1 = 0#1) :
    ∃ z, y.step .host = .next z ∧ SameCore y.core z.core ∧ WaitStage h₀ t seen k z.host := by
  have same : SameCore y.core y.core := by constructor <;> rfl
  cases stage with
  | branch behind bound saw =>
    obtain ⟨h, turn, behind, vars⟩ := wait.step_branch_idle behind bound (idle _ saw)
    exact ⟨_, turn, same, .passed behind (vars ▸ bound) saw⟩
  | read behind =>
    obtain ⟨z, turn, same, behind, bound⟩ := wait.step_read behind
    exact ⟨z, turn, same, .branch behind bound sees⟩
  | label behind =>
    obtain ⟨h, turn, behind⟩ := wait.step_label behind
    exact ⟨_, turn, same, .read behind⟩
  | retry behind bound again =>
    obtain ⟨h, turn, behind⟩ := wait.step_branch_busy behind bound again
    exact ⟨_, turn, same, .label behind⟩

end

/-! ### `wait` under a weakly fair schedule (R248) -/

section
variable {σ : Schedule} {y : System} {line t : Nat}

/-- R248: while the core is busy a host at a `wait` goes on polling. -/
theorem AtWait.polls_while_busy (wait : AtWait y.host line t) {n : Nat} (busy : ∀ m, m < n → y.BusyAfter σ m) :
    ∃ z k, y.runUnder σ n = .next z ∧ WaitStage y.host t (fun _ => False) k z.host := by
  induction n with
  | zero => exact ⟨y, 3, rfl, wait.stage _⟩
  | succ n ih =>
    obtain ⟨x, k, run, stage⟩ := ih fun m hm => busy m (Nat.lt_succ_of_lt hm)
    obtain ⟨x', run', hb⟩ := busy n n.lt_succ_self
    obtain rfl : x = x' := Host.Outcome.next.inj (run.symm.trans run')
    rw [System.runUnder_succ run]
    by_cases host : σ n = .host
    · rw [host]
      exact wait.step_busy hb stage
    · obtain ⟨c, turn, -⟩ := System.step_of_notHost host x
      exact ⟨_, k, turn, stage⟩

/-- R52, R248: a STATUS value with BUSY = 0, which is the core's while no reset has happened since. -/
def SawIdle (noReset : Prop) (c : State) (v : Word) : Prop :=
  v.extractLsb' 3 1 = 0#1 ∧ (noReset → v = statusWord c)

/-- R52: an idle core shows its STATUS. -/
theorem sawIdle_statusWord {c : State} (idle : c.busy = false) (noReset : Prop) :
    SawIdle noReset c (Machine.statusWord c) :=
  ⟨by rw [statusWord_busy, idle]; rfl, fun _ => rfl⟩

/-- R248: a STATUS value that was the core's still is after one turn more, which is a reset or leaves the record
alone. -/
theorem SawIdle.succ {n : Nat} {c d : State} {v : Word} (saw : SawIdle (NoResetBefore σ n) c v)
    (same : σ n ≠ .reset → SameCore c d) : SawIdle (NoResetBefore σ (n + 1)) d v :=
  ⟨saw.1, fun noReset => (saw.2 noReset.of_succ).trans (same (noReset n n.lt_succ_self)).statusWord.symm⟩

/-- R96, R248: after `n` turns the core is idle and the host is `k` turns of its own from having passed its `wait`. -/
structure PassesIn (σ : Schedule) (y : System) (t k n : Nat) (z : System) : Prop where
  run : y.runUnder σ n = .next z
  idle : z.core.busy = false
  stage : WaitStage y.host t (SawIdle (NoResetBefore σ n) z.core) k z.host

/-- R248: a turn of the core or of reset does not put the host off. -/
theorem PassesIn.notHost {k n : Nat} {z : System} (passes : PassesIn σ y t k n z) (notHost : σ n ≠ .host) :
    ∃ z', PassesIn σ y t k (n + 1) z' := by
  obtain ⟨c, turn, leaves⟩ := System.step_of_notHost notHost z
  obtain ⟨idle, same⟩ := leaves passes.idle
  exact ⟨_, (System.runUnder_succ passes.run).trans turn, idle, passes.stage.mono fun _ saw => saw.succ same⟩

/-- R248: a turn of the host brings it one turn nearer. -/
theorem PassesIn.host {k n : Nat} {z : System} (wait : AtWait y.host line t) (passes : PassesIn σ y t (k + 1) n z)
    (host : σ n = .host) : ∃ z', PassesIn σ y t k (n + 1) z' := by
  obtain ⟨z', turn, same, stage⟩ := wait.step_idle passes.stage (sawIdle_statusWord passes.idle _) fun _ => And.left
  exact ⟨z', (System.runUnder_succ passes.run).trans (host ▸ turn), same.busy.trans passes.idle,
    stage.mono fun _ saw => saw.succ fun _ => same⟩

/-- R248: the host has a turn again, before which the others do not put it off. -/
theorem PassesIn.nearer {k n : Nat} {z : System} (wait : AtWait y.host line t) (goesOn : HostGoesOn σ)
    (passes : PassesIn σ y t (k + 1) n z) : ∃ m z', PassesIn σ y t k m z' := by
  obtain ⟨m, later, host⟩ := goesOn n
  induction later using Nat.decreasingInduction generalizing z with
  | self => exact ⟨_, passes.host wait host⟩
  | of_succ m' _ ih =>
    by_cases hm : σ m' = .host
    · exact ⟨_, passes.host wait hm⟩
    · obtain ⟨z', passes'⟩ := passes.notHost hm
      exact ih passes'

/-- R248: turn by turn of its own, the host passes its `wait`. -/
theorem PassesIn.exists_passed {k n : Nat} {z : System} (wait : AtWait y.host line t) (goesOn : HostGoesOn σ)
    (passes : PassesIn σ y t k n z) : ∃ m z', PassesIn σ y t 0 m z' := by
  induction k generalizing n z with
  | zero => exact ⟨n, z, passes⟩
  | succ k ih =>
    obtain ⟨_, _, passes'⟩ := passes.nearer wait goesOn
    exact ih passes'

end

/-- Settles O52: at the first moment at which the core is idle the host is still polling; from then on its own turns
bring it past the `wait`, with the STATUS of an idle core. -/
theorem waitTerminatesUnderFairness : Obligations.WaitTerminatesUnderFairness := by
  intro σ y line t fair goesOn wait
  obtain ⟨n, z, run, idle, before⟩ := System.exists_first_idle fair
  obtain ⟨z', k, run', polling⟩ := wait.polls_while_busy before
  obtain rfl : z = z' := Host.Outcome.next.inj (run.symm.trans run')
  obtain ⟨m, x, passed⟩ := PassesIn.exists_passed wait goesOn ⟨run, idle, polling.mono fun _ => False.elim⟩
  cases passed.stage with
  | passed behind bound saw =>
    exact ⟨m, x, _, passed.run, behind.running, behind.pos, behind.prog, passed.idle, bound, saw.1,
      fun noReset => ⟨saw.2 noReset, fun pending => System.done_of_idle pending noReset passed.run passed.idle⟩⟩

end Sys2Proof.Machine
